-- ==== Sys2Proof/Word.lean ====
section
/-! DEFINITION. The word types of the machine (spec 00_scope.md R6, R8): every quantity is unsigned. -/

namespace Sys2Proof

/-- A byte: a general register, a timer, a memory cell (R6 `REG_W`, `TIMER_W`). -/
abbrev Byte := BitVec 8

/-- A 16-bit cell: I, pc, a stack slot, an opcode (R6 `I_W`, `PC_W`, R8). -/
abbrev Word := BitVec 16

/-- A 4-bit field of an opcode; as `x` or `y` it names a general register (R8, R11). -/
abbrev Nibble := BitVec 4

/-- The 12-bit immediate address field `addr` (R11). -/
abbrev Addr12 := BitVec 12

end Sys2Proof
end

