-- ==== Sys2Proof/Config.lean ====
section
/-! DEFINITION. The open parameters of spec 00_scope.md R7 as types of their readings, and the machine's
free values. Which reading the machine takes is said beside the operation that uses it (Decode.lean, Machine/Flags.lean,
Machine/Ops.lean). The free values are constants with no body: no proof can rest on what they are. -/

namespace Sys2Proof

/-- `DECODE_0E_SELECTOR` (R7, R99, decision D3): what families 0x0 and 0xE select on. -/
inductive Decode0ESelector where
  | lowByte
  | lowNibble
  deriving DecidableEq, Repr

/-- `VF_WRITE_ORDER` (R7, R173, decision D9): which of the two writes of a flag-writing instruction comes last. -/
inductive VfWriteOrder where
  | flagLast
  | resultLast
  deriving DecidableEq, Repr

/-- `FB_EDGE_POLICY` (R7, R213, decision D8): what a set sprite bit outside the 64 by 32 grid does. -/
inductive FbEdgePolicy where
  | fault
  | rowMajor
  deriving DecidableEq, Repr

/-- The random byte of the draw with this index (R38, D14, U9): free, under no law. Log 7. -/
opaque Config.randByte : Nat → Byte

/-! Unknown contents, one family per piece of state: what the state holds after a fault (R251, U12, log 9) and, in the
alternative `RESET_VALUES = unwritten`, after reset (R42, U10, log 21). -/

opaque Config.unknownV : Nat → Vector Byte 16
opaque Config.unknownI : Nat → Word
opaque Config.unknownPc : Nat → Word
opaque Config.unknownSp : Nat → Fin 17
opaque Config.unknownStack : Nat → Vector Word 16
opaque Config.unknownDt : Nat → Byte
opaque Config.unknownSt : Nat → Byte
opaque Config.unknownMem : Nat → Nat → Byte
opaque Config.unknownFb : Nat → Vector (Vector Bool 64) 32

end Sys2Proof
end

