-- ==== Sys2Proof/Syntax.lean ====
section
/-! DEFINITION. The instruction set (spec 30_encoding.md R95; spec/opcode_table.json): one constructor per row of the
table, in the table's order, the catch-all last. A register operand is the 4-bit field that names it. Bits the spec
calls ignored (R100) are no operands. -/

namespace Sys2Proof

/-- The 34 instructions of R95 and the unmatched no-operation of R124. -/
inductive Instr where
  /-- `CLS`, 00E0 (R211). -/
  | cls
  /-- `RET`, 00EE (R140). -/
  | ret
  /-- `JP addr`, 1nnn (R141). -/
  | jp (addr : Addr12)
  /-- `CALL addr`, 2nnn (R142). -/
  | call (addr : Addr12)
  /-- `SE Vx, kk`, 3xkk (R143). -/
  | seImm (x : Nibble) (kk : Byte)
  /-- `SNE Vx, kk`, 4xkk (R144). -/
  | sneImm (x : Nibble) (kk : Byte)
  /-- `SE Vx, Vy`, 5xy0 (R145). -/
  | seReg (x y : Nibble)
  /-- `LD Vx, kk`, 6xkk (R160). -/
  | ldImm (x : Nibble) (kk : Byte)
  /-- `ADD Vx, kk`, 7xkk (R161). -/
  | addImm (x : Nibble) (kk : Byte)
  /-- `LD Vx, Vy`, 8xy0 (R162). -/
  | ldReg (x y : Nibble)
  /-- `OR Vx, Vy`, 8xy1 (R163). -/
  | orReg (x y : Nibble)
  /-- `AND Vx, Vy`, 8xy2 (R164). -/
  | andReg (x y : Nibble)
  /-- `XOR Vx, Vy`, 8xy3 (R165). -/
  | xorReg (x y : Nibble)
  /-- `ADD Vx, Vy`, 8xy4 (R166). -/
  | addReg (x y : Nibble)
  /-- `SUB Vx, Vy`, 8xy5 (R167). -/
  | sub (x y : Nibble)
  /-- `SHR Vx`, 8xy6 (R168); the field y is ignored (R100). -/
  | shr (x : Nibble)
  /-- `SUBN Vx, Vy`, 8xy7 (R169). -/
  | subn (x y : Nibble)
  /-- `SHL Vx`, 8xyE (R170); the field y is ignored (R100). -/
  | shl (x : Nibble)
  /-- `SNE Vx, Vy`, 9xy0 (R146). -/
  | sneReg (x y : Nibble)
  /-- `LD I, addr`, Annn (R190). -/
  | ldI (addr : Addr12)
  /-- `JP V0, addr`, Bnnn (R147). -/
  | jpV0 (addr : Addr12)
  /-- `RND Vx, kk`, Cxkk (R171). -/
  | rnd (x : Nibble) (kk : Byte)
  /-- `DRW Vx, Vy, n`, Dxyn (R212). -/
  | drw (x y n : Nibble)
  /-- `SKP Vx`, Ex9E (R230). -/
  | skp (x : Nibble)
  /-- `SKNP Vx`, ExA1 (R231). -/
  | sknp (x : Nibble)
  /-- `LD Vx, DT`, Fx07 (R232). -/
  | ldVxDt (x : Nibble)
  /-- `LD Vx, K`, Fx0A (R233). -/
  | ldVxK (x : Nibble)
  /-- `LD DT, Vx`, Fx15 (R234). -/
  | ldDtVx (x : Nibble)
  /-- `LD ST, Vx`, Fx18 (R235). -/
  | ldStVx (x : Nibble)
  /-- `ADD I, Vx`, Fx1E (R191). -/
  | addI (x : Nibble)
  /-- `LD F, Vx`, Fx29 (R192). -/
  | ldF (x : Nibble)
  /-- `LD B, Vx`, Fx33 (R193). -/
  | ldB (x : Nibble)
  /-- `LD [I], Vx`, Fx55 (R195): stores V0 to Vx. -/
  | stRegs (x : Nibble)
  /-- `LD Vx, [I]`, Fx65 (R196): loads V0 to Vx. -/
  | ldRegs (x : Nibble)
  /-- `DW word`: a word that matches no row, the no-operation `NOP_UNMATCHED` (R101, R124). The word is kept so that
  the encoder gives it back; the instruction does not read it. -/
  | nopUnmatched (word : Word)
  deriving DecidableEq, Repr

end Sys2Proof
end

