-- ==== Sys2Proof/Decode.lean ====
section
/-! DEFINITION. Decoding and encoding (spec 30_encoding.md). Decoding is total on 16-bit words (R101, R103); a stream of
fewer than two bytes is rejected by name. The decoder follows the two-level dispatch of R94 and R123; the match and mask
table of R95 stands beside it, so that the two can be held against each other. The numeric opcode values are the spec's,
which marks them general knowledge (R94, K1; log 1). -/

namespace Sys2Proof

/-! ## Fields (R91) -/

/-- The family selector `opcode[15:12]`. -/
def opFamily (op : Word) : Nibble := op.extractLsb' 12 4

/-- `x = (opcode >> 8) & 0xF`. -/
def opX (op : Word) : Nibble := op.extractLsb' 8 4

/-- `y = (opcode >> 4) & 0xF`. -/
def opY (op : Word) : Nibble := op.extractLsb' 4 4

/-- `n = opcode & 0xF`. -/
def opN (op : Word) : Nibble := op.extractLsb' 0 4

/-- `kk = opcode & 0xFF`. -/
def opKk (op : Word) : Byte := op.extractLsb' 0 8

/-- `addr = opcode & 0xFFF`. -/
def opAddr (op : Word) : Addr12 := op.extractLsb' 0 12

/-! ## Dispatch (R94 to R101) -/

/-- The reading of `DECODE_0E_SELECTOR` this machine takes: the spec's default (R7, R99, D3; log 2). -/
def decode0ESelector : Decode0ESelector := .lowByte

/-- Family 0x0 (R99, R100): CLS and RET; bits 11 to 8 are ignored. -/
def decodeFamily0 (sel : Decode0ESelector) (op : Word) : Instr :=
  match sel with
  | .lowByte =>
    match opKk op with
    | 0xE0#8 => .cls
    | 0xEE#8 => .ret
    | _ => .nopUnmatched op
  | .lowNibble =>
    match opN op with
    | 0x0#4 => .cls
    | 0xE#4 => .ret
    | _ => .nopUnmatched op

/-- Family 0x8 selects on the low nibble (R97). -/
def decodeFamily8 (op : Word) : Instr :=
  match opN op with
  | 0x0#4 => .ldReg (opX op) (opY op)
  | 0x1#4 => .orReg (opX op) (opY op)
  | 0x2#4 => .andReg (opX op) (opY op)
  | 0x3#4 => .xorReg (opX op) (opY op)
  | 0x4#4 => .addReg (opX op) (opY op)
  | 0x5#4 => .sub (opX op) (opY op)
  | 0x6#4 => .shr (opX op)
  | 0x7#4 => .subn (opX op) (opY op)
  | 0xE#4 => .shl (opX op)
  | _ => .nopUnmatched op

/-- Family 0xE (R99): SKP and SKNP. -/
def decodeFamilyE (sel : Decode0ESelector) (op : Word) : Instr :=
  match sel with
  | .lowByte =>
    match opKk op with
    | 0x9E#8 => .skp (opX op)
    | 0xA1#8 => .sknp (opX op)
    | _ => .nopUnmatched op
  | .lowNibble =>
    match opN op with
    | 0xE#4 => .skp (opX op)
    | 0x1#4 => .sknp (opX op)
    | _ => .nopUnmatched op

/-- Family 0xF selects on the low byte (R98). -/
def decodeFamilyF (op : Word) : Instr :=
  match opKk op with
  | 0x07#8 => .ldVxDt (opX op)
  | 0x0A#8 => .ldVxK (opX op)
  | 0x15#8 => .ldDtVx (opX op)
  | 0x18#8 => .ldStVx (opX op)
  | 0x1E#8 => .addI (opX op)
  | 0x29#8 => .ldF (opX op)
  | 0x33#8 => .ldB (opX op)
  | 0x55#8 => .stRegs (opX op)
  | 0x65#8 => .ldRegs (opX op)
  | _ => .nopUnmatched op

/-- Two-level dispatch (R94, R123) under either reading of families 0x0 and 0xE. -/
def decodeWith (sel : Decode0ESelector) (op : Word) : Instr :=
  match opFamily op with
  | 0x0#4 => decodeFamily0 sel op
  | 0x1#4 => .jp (opAddr op)
  | 0x2#4 => .call (opAddr op)
  | 0x3#4 => .seImm (opX op) (opKk op)
  | 0x4#4 => .sneImm (opX op) (opKk op)
  | 0x5#4 => .seReg (opX op) (opY op)
  | 0x6#4 => .ldImm (opX op) (opKk op)
  | 0x7#4 => .addImm (opX op) (opKk op)
  | 0x8#4 => decodeFamily8 op
  | 0x9#4 => .sneReg (opX op) (opY op)
  | 0xA#4 => .ldI (opAddr op)
  | 0xB#4 => .jpV0 (opAddr op)
  | 0xC#4 => .rnd (opX op) (opKk op)
  | 0xD#4 => .drw (opX op) (opY op) (opN op)
  | 0xE#4 => decodeFamilyE sel op
  -- the one family left, 0xF
  | _ => decodeFamilyF op

/-- The decoder of this machine: every word is one of 35 behaviours (R103). -/
def decodeWord (op : Word) : Instr := decodeWith decode0ESelector op

/-! ## Byte streams (R61, R90) -/

/-- `{byte0, byte1}`: the byte at the lower address holds bits 15 to 8 (R61). -/
def wordOfBytes (b0 b1 : Byte) : Word := b0 ++ b1

/-- The byte stored at the lower address. -/
def highByte (op : Word) : Byte := op.extractLsb' 8 8

/-- The byte stored at the higher address. -/
def lowByte (op : Word) : Byte := op.extractLsb' 0 8

/-- Why a byte stream is not decoded. -/
inductive DecodeError where
  /-- Fewer than the two bytes an instruction has (R90); `available` says how many there were. -/
  | truncated (available : Nat)
  deriving DecidableEq, Repr

/-- Decode the first instruction of a byte stream and return what follows it (R90: always two bytes). -/
def decodeBytes : List Byte → Except DecodeError (Instr × List Byte)
  | b0 :: b1 :: rest => .ok (decodeWord (wordOfBytes b0 b1), rest)
  | short => .error (.truncated short.length)

/-! ## Encoding (R95, R104: ignored bits are 0) -/

/-- The word of an instruction. -/
def encode : Instr → Word
  | .cls => 0x0#4 ++ 0x0#4 ++ 0xE0#8
  | .ret => 0x0#4 ++ 0x0#4 ++ 0xEE#8
  | .jp addr => 0x1#4 ++ addr
  | .call addr => 0x2#4 ++ addr
  | .seImm x kk => 0x3#4 ++ x ++ kk
  | .sneImm x kk => 0x4#4 ++ x ++ kk
  | .seReg x y => 0x5#4 ++ x ++ y ++ 0x0#4
  | .ldImm x kk => 0x6#4 ++ x ++ kk
  | .addImm x kk => 0x7#4 ++ x ++ kk
  | .ldReg x y => 0x8#4 ++ x ++ y ++ 0x0#4
  | .orReg x y => 0x8#4 ++ x ++ y ++ 0x1#4
  | .andReg x y => 0x8#4 ++ x ++ y ++ 0x2#4
  | .xorReg x y => 0x8#4 ++ x ++ y ++ 0x3#4
  | .addReg x y => 0x8#4 ++ x ++ y ++ 0x4#4
  | .sub x y => 0x8#4 ++ x ++ y ++ 0x5#4
  | .shr x => 0x8#4 ++ x ++ 0x0#4 ++ 0x6#4
  | .subn x y => 0x8#4 ++ x ++ y ++ 0x7#4
  | .shl x => 0x8#4 ++ x ++ 0x0#4 ++ 0xE#4
  | .sneReg x y => 0x9#4 ++ x ++ y ++ 0x0#4
  | .ldI addr => 0xA#4 ++ addr
  | .jpV0 addr => 0xB#4 ++ addr
  | .rnd x kk => 0xC#4 ++ x ++ kk
  | .drw x y n => 0xD#4 ++ x ++ y ++ n
  | .skp x => 0xE#4 ++ x ++ 0x9E#8
  | .sknp x => 0xE#4 ++ x ++ 0xA1#8
  | .ldVxDt x => 0xF#4 ++ x ++ 0x07#8
  | .ldVxK x => 0xF#4 ++ x ++ 0x0A#8
  | .ldDtVx x => 0xF#4 ++ x ++ 0x15#8
  | .ldStVx x => 0xF#4 ++ x ++ 0x18#8
  | .addI x => 0xF#4 ++ x ++ 0x1E#8
  | .ldF x => 0xF#4 ++ x ++ 0x29#8
  | .ldB x => 0xF#4 ++ x ++ 0x33#8
  | .stRegs x => 0xF#4 ++ x ++ 0x55#8
  | .ldRegs x => 0xF#4 ++ x ++ 0x65#8
  | .nopUnmatched word => word

/-- The two bytes of an instruction, the first at the lower address (R61). -/
def encodeBytes (i : Instr) : List Byte := [highByte (encode i), lowByte (encode i)]

/-! ## The opcode table (R95, R106) -/

/-- One row of R95: a word is the row's instruction when `word & mask = pattern`. -/
structure OpcodeRow where
  mnemonic : String
  mask : Word
  pattern : Word
  deriving DecidableEq, Repr

/-- A row selects a word (R95). -/
def rowMatches (op : Word) (r : OpcodeRow) : Bool := op &&& r.mask == r.pattern

/-- R95, families 0x0 to 0x7. -/
def opcodeRowsLow : List OpcodeRow :=
  [⟨"CLS", 0xF0FF#16, 0x00E0#16⟩,
   ⟨"RET", 0xF0FF#16, 0x00EE#16⟩,
   ⟨"JP", 0xF000#16, 0x1000#16⟩,
   ⟨"CALL", 0xF000#16, 0x2000#16⟩,
   ⟨"SE_IMM", 0xF000#16, 0x3000#16⟩,
   ⟨"SNE_IMM", 0xF000#16, 0x4000#16⟩,
   ⟨"SE_REG", 0xF000#16, 0x5000#16⟩,
   ⟨"LD_IMM", 0xF000#16, 0x6000#16⟩,
   ⟨"ADD_IMM", 0xF000#16, 0x7000#16⟩]

/-- R95, family 0x8. -/
def opcodeRows8 : List OpcodeRow :=
  [⟨"LD_REG", 0xF00F#16, 0x8000#16⟩,
   ⟨"OR", 0xF00F#16, 0x8001#16⟩,
   ⟨"AND", 0xF00F#16, 0x8002#16⟩,
   ⟨"XOR", 0xF00F#16, 0x8003#16⟩,
   ⟨"ADD_REG", 0xF00F#16, 0x8004#16⟩,
   ⟨"SUB", 0xF00F#16, 0x8005#16⟩,
   ⟨"SHR", 0xF00F#16, 0x8006#16⟩,
   ⟨"SUBN", 0xF00F#16, 0x8007#16⟩,
   ⟨"SHL", 0xF00F#16, 0x800E#16⟩]

/-- R95, families 0x9 to 0xE. -/
def opcodeRowsHigh : List OpcodeRow :=
  [⟨"SNE_REG", 0xF000#16, 0x9000#16⟩,
   ⟨"LD_I", 0xF000#16, 0xA000#16⟩,
   ⟨"JP_V0", 0xF000#16, 0xB000#16⟩,
   ⟨"RND", 0xF000#16, 0xC000#16⟩,
   ⟨"DRW", 0xF000#16, 0xD000#16⟩,
   ⟨"SKP", 0xF0FF#16, 0xE09E#16⟩,
   ⟨"SKNP", 0xF0FF#16, 0xE0A1#16⟩]

/-- R95, family 0xF. -/
def opcodeRowsF : List OpcodeRow :=
  [⟨"LD_VX_DT", 0xF0FF#16, 0xF007#16⟩,
   ⟨"LD_VX_K", 0xF0FF#16, 0xF00A#16⟩,
   ⟨"LD_DT_VX", 0xF0FF#16, 0xF015#16⟩,
   ⟨"LD_ST_VX", 0xF0FF#16, 0xF018#16⟩,
   ⟨"ADD_I", 0xF0FF#16, 0xF01E#16⟩,
   ⟨"LD_F", 0xF0FF#16, 0xF029#16⟩,
   ⟨"LD_B", 0xF0FF#16, 0xF033#16⟩,
   ⟨"ST_REGS", 0xF0FF#16, 0xF055#16⟩,
   ⟨"LD_REGS", 0xF0FF#16, 0xF065#16⟩]

/-- The 34 rows of R95 in the table's order; the catch-all row of R106 is `NOP_UNMATCHED`. -/
def opcodeTable : List OpcodeRow := opcodeRowsLow ++ opcodeRows8 ++ opcodeRowsHigh ++ opcodeRowsF

/-- The mnemonic of the row an instruction belongs to (R95, R106). -/
def mnemonicOf : Instr → String
  | .cls => "CLS"
  | .ret => "RET"
  | .jp _ => "JP"
  | .call _ => "CALL"
  | .seImm _ _ => "SE_IMM"
  | .sneImm _ _ => "SNE_IMM"
  | .seReg _ _ => "SE_REG"
  | .ldImm _ _ => "LD_IMM"
  | .addImm _ _ => "ADD_IMM"
  | .ldReg _ _ => "LD_REG"
  | .orReg _ _ => "OR"
  | .andReg _ _ => "AND"
  | .xorReg _ _ => "XOR"
  | .addReg _ _ => "ADD_REG"
  | .sub _ _ => "SUB"
  | .shr _ => "SHR"
  | .subn _ _ => "SUBN"
  | .shl _ => "SHL"
  | .sneReg _ _ => "SNE_REG"
  | .ldI _ => "LD_I"
  | .jpV0 _ => "JP_V0"
  | .rnd _ _ => "RND"
  | .drw _ _ _ => "DRW"
  | .skp _ => "SKP"
  | .sknp _ => "SKNP"
  | .ldVxDt _ => "LD_VX_DT"
  | .ldVxK _ => "LD_VX_K"
  | .ldDtVx _ => "LD_DT_VX"
  | .ldStVx _ => "LD_ST_VX"
  | .addI _ => "ADD_I"
  | .ldF _ => "LD_F"
  | .ldB _ => "LD_B"
  | .stRegs _ => "ST_REGS"
  | .ldRegs _ => "LD_REGS"
  | .nopUnmatched _ => "NOP_UNMATCHED"

/-! ## The table's numbering of bits -/

/-- The two bytes of an instruction whose bits, as spec/opcode_table.json numbers them (bit 0 the least significant of the
16-bit word, R8), are the low `nbits` bits of `w`; every bit above is 0. -/
def tableBytes (nbits w : Nat) : List Byte :=
  [BitVec.ofNat 8 (w % 2 ^ nbits / 256), BitVec.ofNat 8 (w % 2 ^ nbits)]

/-- The instruction the decoder reads from those bytes. -/
def decodeTableWord (nbits w : Nat) : Option Instr :=
  match decodeBytes (tableBytes nbits w) with
  | .ok (i, _) => some i
  | .error _ => none

end Sys2Proof
end

