-- ==== Sys2Proof/Machine/State.lean ====
section
/-! DEFINITION. The state of the machine as plain data, its faults and refusals, and the state after reset (spec
10_state.md; the list of pieces with their rules is INVENTORY.md, heading State). -/

namespace Sys2Proof.Machine

/-- Memory, `mem[0..4095]` (R33, R60), as the cells that differ from their reset content: addresses strictly rising and
below 4096. Machine/Ops.lean reads and writes it; `Memory.wf` there is the canonical form. -/
abbrev Memory := List Host.Cell

/-- The framebuffer `fb[y][x]`: 32 rows from the top, 64 columns from the left, true for lit (R35). -/
abbrev Framebuffer := Vector (Vector Bool 64) 32

/-- The sixteen key flags, true for pressed (R37). -/
abbrev Keypad := Vector Bool 16

/-- The call stack: sixteen 16-bit slots (R29). -/
abbrev CallStack := Vector Word 16

/-- The faults of R250. A Cycle that raises one stops there (R129, R251). All are safe: the machine stops where the
source's software does something the source calls undefined or does not describe (decisions D5 to D8, D15; log 8). -/
inductive Fault where
  /-- An access to an address above 4095, the first out-of-range one. Raised by the fetch of every Cycle, DRW, LD B,
  LD [I] and LD Vx,[I] (R62, R66). Safe. -/
  | memFault (addr : Nat)
  /-- A CALL with all sixteen slots in use (R142). Safe. -/
  | stackOverflow
  /-- A RET with no slot in use (R140). Safe. -/
  | stackUnderflow
  /-- SKP or SKNP with `Vx > 15` (R237). Safe. -/
  | keyIndexFault (k : Byte)
  /-- DRW: a set sprite bit whose target column or row is outside the 64 by 32 grid (R213). Safe. -/
  | fbFault (px py : Nat)
  deriving DecidableEq, Repr

/-- Why the model gives an instruction no meaning. -/
inductive Refusal where
  /-- The instruction with this mnemonic has no meaning yet. Raised by no arm of exec: every row of the opcode table has
  its meaning. Safe. -/
  | notModelled (mnemonic : String)
  deriving DecidableEq, Repr

/-- The machine's state (10_state.md, the tuple before section 1). -/
structure State where
  /-- General registers V0 to VF (R20). -/
  V : Vector Byte 16
  /-- Index register (R25). -/
  I : Word
  /-- Program counter (R26). -/
  pc : Word
  /-- Stack pointer, 0 to 16: the number of slots in use (R29, R30; log 15). -/
  sp : Fin 17
  /-- Call-stack slots (R29). -/
  stack : CallStack
  /-- Delay timer (R31). -/
  DT : Byte
  /-- Sound timer (R31). -/
  ST : Byte
  /-- Memory (R33). -/
  mem : Memory
  /-- Framebuffer (R35). -/
  fb : Framebuffer
  /-- The fault mark (R39). -/
  faulted : Option Fault
  /-- The key flags as the host last set them (R37, R236): an input of the core, which only reads it (log 6). -/
  keys : Keypad
  /-- The model's own: how many free values have been taken, the index of the next one (R38, R251; log 7). -/
  draws : Nat
  deriving DecidableEq, Repr

/-- The state right after reset, construction (R42, R280, R281): pc at 0x200, an empty call stack, timers at rest, memory
with nothing listed (so the font and zeros, R43), a dark framebuffer and no fault are R42's table; `keys` (R42 gives no
value) and `draws` are the model's choice (log 6, log 7). -/
def State.reset : State where
  V := Vector.replicate 16 0
  I := 0
  pc := 0x200
  sp := 0
  stack := Vector.replicate 16 0
  DT := 0
  ST := 0
  mem := []
  fb := Vector.replicate 32 (Vector.replicate 64 false)
  faulted := none
  keys := Vector.replicate 16 false
  draws := 0

end Sys2Proof.Machine
end

