-- ==== Sys2Proof/Machine/Ops.lean ====
section
/-! DEFINITION. The named operations of the machine: memory and its two primitives (spec 20_memory.md), registers, the
program counter and the call stack (10_state.md), the fetch and the timer tick (40_cycle_and_dispatch.md), the framebuffer
(44_display.md), the keypad (45_keypad_and_timers.md), and taking a fault (60_exceptions.md R251). There is no return from
a fault (R256), so no operation returns from one. -/

namespace Sys2Proof.Machine

/-! ## Memory (R33, R42, R43, R60, R66) -/

/-- The fontset: 16 glyphs of 5 bytes (R43). Glyph 0 is the source's; the bytes of glyphs 1 to F are the standard font the
spec supplies from general knowledge (D13, K2; log 5). -/
def fontset : List Byte :=
  [0xF0, 0x90, 0x90, 0x90, 0xF0,  0x20, 0x60, 0x20, 0x20, 0x70,
   0xF0, 0x10, 0xF0, 0x80, 0xF0,  0xF0, 0x10, 0xF0, 0x10, 0xF0,
   0x90, 0x90, 0xF0, 0x10, 0x10,  0xF0, 0x80, 0xF0, 0x10, 0xF0,
   0xF0, 0x80, 0xF0, 0x90, 0xF0,  0xF0, 0x10, 0x20, 0x40, 0x40] ++
  [0xF0, 0x90, 0xF0, 0x90, 0xF0,  0xF0, 0x90, 0xF0, 0x10, 0xF0,
   0xF0, 0x90, 0xF0, 0x90, 0x90,  0xE0, 0x90, 0xE0, 0x90, 0xE0,
   0xF0, 0x80, 0x80, 0x80, 0xF0,  0xE0, 0x90, 0x90, 0x90, 0xE0,
   0xF0, 0x80, 0xF0, 0x80, 0xF0,  0xF0, 0x80, 0xF0, 0x80, 0x80]

/-- `FONT_BASE` (R6). -/
def fontBase : Nat := 0x050

/-- `PROG_BASE` (R6). -/
def progBase : Nat := 0x200

/-- `MEM_SIZE` (R6). -/
def memSize : Nat := 4096

/-- The reset content of an address, which is what an unlisted address reads as: the font bytes at 0x050 to 0x09F (R43),
0 elsewhere (R42, decision D12; log 4, log 13). -/
def unlisted (addr : Nat) : Byte :=
  if fontBase ≤ addr then fontset.getD (addr - fontBase) 0 else 0

/-- The byte of memory at an address. -/
def Memory.read : Memory → Nat → Byte
  | [], addr => unlisted addr
  | (key, value) :: rest, addr => if key = addr then value else Memory.read rest addr

/-- Put a cell in front unless it holds the address's reset content. -/
def Memory.cons (addr : Nat) (value : Byte) (rest : Memory) : Memory :=
  if value = unlisted addr then rest else (addr, value) :: rest

/-- Memory with one byte changed; the canonical form is kept. -/
def Memory.write : Memory → Nat → Byte → Memory
  | [], addr, value => Memory.cons addr value []
  | (key, old) :: rest, addr, value =>
    if key < addr then (key, old) :: Memory.write rest addr value
    else if key = addr then Memory.cons addr value rest
    else Memory.cons addr value ((key, old) :: rest)

/-- The canonical form of memory: addresses strictly rising and below 4096, no cell equal to its reset content. -/
abbrev Memory.wf (m : Memory) : Prop :=
  m.Pairwise (fun c d => c.1 < d.1) ∧ ∀ c ∈ m, c.1 < memSize ∧ c.2 ≠ unlisted c.1

/-- The memory whose 4096 bytes are `content 0` to `content 4095`. -/
def Memory.ofContent (content : Nat → Byte) : Memory :=
  (List.range memSize).foldr (fun addr rest => Memory.cons addr (content addr) rest) []

/-- `MemRead(addr, 1)` (R9, R60, R66): the address is a natural number, never truncated. -/
def memRead (m : Memory) (addr : Nat) : Except Fault Byte :=
  if addr < memSize then .ok (Memory.read m addr) else .error (.memFault addr)

/-- `MemWrite(addr, 1, v)` (R9, R60, R66). -/
def memWrite (m : Memory) (addr : Nat) (v : Byte) : Except Fault Memory :=
  if addr < memSize then .ok (Memory.write m addr v) else .error (.memFault addr)

/-- Bytes written one at a time at ascending addresses (R63, R67); the first address above 4095 faults. -/
def storeBytes (base : Nat) : List Byte → Memory → Except Fault Memory
  | [], m => .ok m
  | v :: vs, m =>
    match memWrite m base v with
    | .error f => .error f
    | .ok m' => storeBytes (base + 1) vs m'

/-- Bytes read one at a time at ascending addresses (R63, R67); the first address above 4095 faults. -/
def loadBytes (m : Memory) (base : Nat) : Nat → Except Fault (List Byte)
  | 0 => .ok []
  | count + 1 =>
    match memRead m base with
    | .error f => .error f
    | .ok v =>
      match loadBytes m (base + 1) count with
      | .error f => .error f
      | .ok vs => .ok (v :: vs)

/-! ## Updates of one piece of state -/

/-- `I <- v`. -/
def State.setI (v : Word) (s : State) : State := { s with I := v }

/-- `pc <- target`. -/
def State.setPc (target : Word) (s : State) : State := { s with pc := target }

/-- `DT <- v`. -/
def State.setDt (v : Byte) (s : State) : State := { s with DT := v }

/-- `ST <- v`. -/
def State.setSt (v : Byte) (s : State) : State := { s with ST := v }

/-- Memory replaced. -/
def State.setMem (m : Memory) (s : State) : State := { s with mem := m }

/-- Framebuffer replaced. -/
def State.setFb (fb : Framebuffer) (s : State) : State := { s with fb := fb }

/-- The host's key flags replaced (R37, R263). -/
def State.setKeys (keys : Keypad) (s : State) : State := { s with keys := keys }

/-! ## General registers (R20, R21) -/

/-- `V[x]`. -/
def State.reg (s : State) (x : Nibble) : Byte := s.V[x.toNat]'(x.isLt)

/-- `V[x] <- v`. -/
def State.setReg (x : Nibble) (v : Byte) (s : State) : State := { s with V := s.V.set x.toNat v x.isLt }

/-- `VF`, the register 0xF (R23). -/
def regF : Nibble := 0xF

/-- The values of V0 to Vx, V0 first (R195). -/
def State.regsUpTo (s : State) (x : Nibble) : List Byte := s.V.toList.take (x.toNat + 1)

/-- `V[i] <- v` for the values in order from register `start` on (R196); values past VF name no register. -/
def setRegsFrom (start : Nat) : List Byte → Vector Byte 16 → Vector Byte 16
  | [], regs => regs
  | v :: vs, regs => setRegsFrom (start + 1) vs (regs.setIfInBounds start v)

/-! ## Program counter (R26, R28, R122, R148) -/

/-- `pc <- (pc + 2) mod 65536`: the advance of step 2 (R122), and `skip` (R9, R148). -/
def State.advance (s : State) : State := s.setPc (s.pc + 2)

/-- `pc <- (pc - 2) mod 65536`: the rewind of LD Vx, K (R233). -/
def State.rewind (s : State) : State := s.setPc (s.pc - 2)

/-- "Skip next" when the condition holds (R148). -/
def State.skipIf (cond : Bool) (s : State) : State := if cond then s.advance else s

/-! ## Call stack (R29, R140, R142) -/

/-- `stack[sp] <- pc; sp <- sp + 1`; with sixteen slots in use, StackOverflow. -/
def pushPc (s : State) : Except Fault State :=
  if h : s.sp.val < 16 then
    .ok { s with stack := s.stack.set s.sp.val s.pc h, sp := ⟨s.sp.val + 1, by omega⟩ }
  else .error .stackOverflow

/-- `sp <- sp - 1; pc <- stack[sp]`; with no slot in use, StackUnderflow. -/
def popPc (s : State) : Except Fault State :=
  if h : 0 < s.sp.val then
    .ok { s with sp := ⟨s.sp.val - 1, by omega⟩, pc := s.stack[s.sp.val - 1]'(by omega) }
  else .error .stackUnderflow

/-! ## Fetch and tick (R61, R62, R121, R125) -/

/-- `Fetch16(a)`: the bytes at `a` and `a + 1`, big-endian, with no wrap. -/
def fetch16 (m : Memory) (a : Nat) : Except Fault Word :=
  match memRead m a with
  | .error f => .error f
  | .ok b0 =>
    match memRead m (a + 1) with
    | .error f => .error f
    | .ok b1 => .ok (wordOfBytes b0 b1)

/-- A timer one lower, or still 0 (R31). -/
def tickTimer (t : Byte) : Byte := if t = 0 then 0 else t - 1

/-- Step 5 of the Cycle (R125): each timer on its own. -/
def State.tick (s : State) : State := { s with DT := tickTimer s.DT, ST := tickTimer s.ST }

/-! ## Framebuffer (R35, R36, R211 to R213) -/

/-- Every cell dark (R211). -/
def darkFramebuffer : Framebuffer := Vector.replicate 32 (Vector.replicate 64 false)

/-- `fb[y][x]`; a position outside the grid names no cell (R36). -/
def fbCell (fb : Framebuffer) (y x : Nat) : Bool :=
  if h : y < 32 ∧ x < 64 then (fb[y]'h.1)[x]'h.2 else false

/-- `fb[y][x] <- fb[y][x] ^ 1`; a position outside the grid names no cell. -/
def fbFlip (fb : Framebuffer) (y x : Nat) : Framebuffer :=
  if h : y < 32 ∧ x < 64 then fb.set y ((fb[y]'h.1).set x (!(fb[y]'h.1)[x]'h.2) h.2) h.1 else fb

/-- The reading of `FB_EDGE_POLICY` this machine takes: the spec's default (R7, R213, D8; log 11). -/
def fbEdgePolicy : FbEdgePolicy := .fault

/-- The cell (row, column) a set sprite bit at column `px`, row `py` lands on, if any (R213). -/
def fbTarget (policy : FbEdgePolicy) (px py : Nat) : Option (Nat × Nat) :=
  match policy with
  | .fault => if px > 63 ∨ py > 31 then none else some (py, px)
  | .rowMajor => if py * 64 + px > 2047 then none else some ((py * 64 + px) / 64, (py * 64 + px) % 64)

/-- What a draw changes: the framebuffer, and whether a touched pixel was lit before (R212). -/
structure Drawing where
  fb : Framebuffer
  hit : Bool
  deriving DecidableEq, Repr

/-- A set sprite bit at column `px`, row `py` (R212, the innermost statements). -/
def drawPixel (policy : FbEdgePolicy) (px py : Nat) (d : Drawing) : Except Fault Drawing :=
  match fbTarget policy px py with
  | none => .error (.fbFault px py)
  | some (y, x) => .ok ⟨fbFlip d.fb y x, d.hit || fbCell d.fb y x⟩

/-- Sprite column `col` of a row byte is bit `7 - col`: bit 7 is the leftmost (R210, D11, K3; log 12). -/
def spriteBit (b : Byte) (col : Nat) : Bool := b.getLsbD (7 - col)

/-- One sprite row, its columns in the order given; clear bits touch nothing (R212, R213). -/
def drawRow (policy : FbEdgePolicy) (b : Byte) (xPos py : Nat) : List Nat → Drawing → Except Fault Drawing
  | [], d => .ok d
  | col :: cols, d =>
    if spriteBit b col then
      match drawPixel policy (xPos + col) py d with
      | .error f => .error f
      | .ok d' => drawRow policy b xPos py cols d'
    else drawRow policy b xPos py cols d

/-- Sprite rows in the order given: each is read from `base + row` and then drawn (R212, R254). -/
def drawRows (policy : FbEdgePolicy) (m : Memory) (base xPos yPos : Nat) : List Nat → Drawing → Except Fault Drawing
  | [], d => .ok d
  | row :: rows, d =>
    match memRead m (base + row) with
    | .error f => .error f
    | .ok b =>
      match drawRow policy b xPos (yPos + row) (List.range 8) d with
      | .error f => .error f
      | .ok d' => drawRows policy m base xPos yPos rows d'

/-- The blit of `n` sprite rows at (xPos, yPos), no collision seen yet (R212). -/
def drawSprite (policy : FbEdgePolicy) (m : Memory) (base xPos yPos n : Nat) (fb : Framebuffer) : Except Fault Drawing :=
  drawRows policy m base xPos yPos (List.range n) ⟨fb, false⟩

/-! ## Keypad (R233, R236, R237) -/

/-- `Key(k)` for a key index taken from a whole register; above 15 it faults (R237, D7; log 23). -/
def readKey (s : State) (k : Byte) : Except Fault Bool :=
  if h : k.toNat < 16 then .ok (s.keys[k.toNat]'h) else .error (.keyIndexFault k)

/-- The least pressed key, if any: the scan of R233 in ascending order. -/
def leastPressed (keys : Keypad) : Option Nat := keys.toList.findIdx? (fun pressed => pressed)

/-! ## The random draw (R38, R171) -/

/-- `RandByte()`: the next free value (D14; log 7). -/
def randByte (s : State) : Byte := Config.randByte s.draws

/-- One free value has been taken. -/
def State.drawn (s : State) : State := { s with draws := s.draws + 1 }

/-! ## Outcomes and faults (R129, R250, R251) -/

/-- The outcome of an effect that may raise a fault. -/
def outcomeOf : Except Fault State → Host.Outcome State Fault Refusal
  | .ok s => .next s
  | .error f => .fault f

/-- The code of a fault (R250). -/
def faultCode : Fault → Nat
  | .memFault _ => 1
  | .stackOverflow => 2
  | .stackUnderflow => 3
  | .keyIndexFault _ => 4
  | .fbFault _ _ => 5

/-- Unknown contents for every piece of the core's state (log 9, log 21); the key flags are the host's and stay, and the
free values taken are not taken again. -/
def State.scrambled (s : State) : State where
  V := Config.unknownV s.draws
  I := Config.unknownI s.draws
  pc := Config.unknownPc s.draws
  sp := Config.unknownSp s.draws
  stack := Config.unknownStack s.draws
  DT := Config.unknownDt s.draws
  ST := Config.unknownSt s.draws
  mem := Memory.ofContent (Config.unknownMem s.draws)
  fb := Config.unknownFb s.draws
  faulted := none
  keys := s.keys
  draws := s.draws + 1

/-- Taking a fault (R251, U12): the mark is set, every other piece of the core's state is unspecified from then on. A Cycle
that raises a fault answers `Host.Outcome.fault` (R120: "the next state or a fault"); the host layer, which keeps the
machine after it, applies this to the state in which the Cycle began (log 8, log 9). -/
def takeFault (f : Fault) (s : State) : State := { s.scrambled with faulted := some f }

end Sys2Proof.Machine
end

