-- ==== Sys2Proof/Machine/Operands.lean ====
section
/-! DEFINITION. Operand forms (spec 30_encoding.md R91, R93; 43_index_and_memory.md R194; 44_display.md R212). -/

namespace Sys2Proof.Machine

/-- `zext_16(v)` of a byte (R9). -/
def zextByte (v : Byte) : Word := v.setWidth 16

/-- `zext_16(addr)` of a 12-bit immediate (R9, R93). -/
def zextAddr (addr : Addr12) : Word := addr.setWidth 16

/-- The base of a data access: I as a natural number; offsets are added without truncation (R194). -/
def State.base (s : State) : Nat := s.I.toNat

/-- `xPos <- V[x] mod 64` (R212). -/
def State.spriteX (s : State) (x : Nibble) : Nat := (s.reg x).toNat % 64

/-- `yPos <- V[y] mod 32` (R212). -/
def State.spriteY (s : State) (y : Nibble) : Nat := (s.reg y).toNat % 32

/-- The three decimal digits of a byte: hundreds, tens, ones (R193). -/
def bcdDigits (v : Byte) : List Byte :=
  [BitVec.ofNat 8 (v.toNat / 100), BitVec.ofNat 8 (v.toNat / 10 % 10), BitVec.ofNat 8 (v.toNat % 10)]

/-- `0x050 + 5 * zext_16(V[x])`: the address of a glyph; the whole byte counts (R192). -/
def glyphAddress (v : Byte) : Word := 0x050 + 5 * zextByte v

end Sys2Proof.Machine
end

