-- ==== Sys2Proof/Machine/Flags.lean ====
section
/-! DEFINITION. Flag computations (spec 10_state.md R23; 42_load_and_arithmetic.md R166 to R170, R172, R173). -/

namespace Sys2Proof.Machine

/-- A flag is 0 or 1 (R23). -/
def flagByte (b : Bool) : Byte := if b then 1 else 0

/-- Carry of `a + b`: the true sum is above 255 (R166, R172). -/
def carryFlag (a b : Byte) : Byte := flagByte (decide (a.toNat + b.toNat > 255))

/-- The strict comparison `a > b` of the values before the subtraction (R167, R169, R172). -/
def aboveFlag (a b : Byte) : Byte := flagByte (decide (a.toNat > b.toNat))

/-- Bit 0 before a shift to the right (R168). -/
def shrFlag (a : Byte) : Byte := flagByte (a.getLsbD 0)

/-- Bit 7 before a shift to the left (R170). -/
def shlFlag (a : Byte) : Byte := flagByte (a.getLsbD 7)

/-- The reading of `VF_WRITE_ORDER` this machine takes: the spec's default (R7, R173, D9; log 10). -/
def vfWriteOrder : VfWriteOrder := .flagLast

/-- The two writes of a flag-writing instruction, the result to `Vx` and the flag to VF, in either order (R173). -/
def writeResultAndFlag (order : VfWriteOrder) (x : Nibble) (result flag : Byte) (s : State) : State :=
  match order with
  | .flagLast => (s.setReg x result).setReg regF flag
  | .resultLast => (s.setReg regF flag).setReg x result

end Sys2Proof.Machine
end

