-- ==== Sys2Proof/Machine/Arith.lean ====
section
/-! DEFINITION. Register load, arithmetic, logic, shift and random (spec 42_load_and_arithmetic.md). Every operand is read
before any write; a flag-writing instruction makes its two writes in the order `vfWriteOrder` (R173). -/

namespace Sys2Proof.Machine

/-- `LD Vx, kk` (R160). -/
def execLdImm (x : Nibble) (kk : Byte) (s : State) : Host.Outcome State Fault Refusal := .next (s.setReg x kk)

/-- `ADD Vx, kk` (R161): wraps, no flag. -/
def execAddImm (x : Nibble) (kk : Byte) (s : State) : Host.Outcome State Fault Refusal :=
  .next (s.setReg x (s.reg x + kk))

/-- `LD Vx, Vy` (R162). -/
def execLdReg (x y : Nibble) (s : State) : Host.Outcome State Fault Refusal := .next (s.setReg x (s.reg y))

/-- `OR Vx, Vy` (R163, R174). -/
def execOrReg (x y : Nibble) (s : State) : Host.Outcome State Fault Refusal :=
  .next (s.setReg x (s.reg x ||| s.reg y))

/-- `AND Vx, Vy` (R164, R174). -/
def execAndReg (x y : Nibble) (s : State) : Host.Outcome State Fault Refusal :=
  .next (s.setReg x (s.reg x &&& s.reg y))

/-- `XOR Vx, Vy` (R165, R174). -/
def execXorReg (x y : Nibble) (s : State) : Host.Outcome State Fault Refusal :=
  .next (s.setReg x (s.reg x ^^^ s.reg y))

/-- `ADD Vx, Vy` (R166): VF is the carry. -/
def execAddReg (x y : Nibble) (s : State) : Host.Outcome State Fault Refusal :=
  .next (writeResultAndFlag vfWriteOrder x (s.reg x + s.reg y) (carryFlag (s.reg x) (s.reg y)) s)

/-- `SUB Vx, Vy` (R167): VF is `Vx > Vy`, strict. -/
def execSub (x y : Nibble) (s : State) : Host.Outcome State Fault Refusal :=
  .next (writeResultAndFlag vfWriteOrder x (s.reg x - s.reg y) (aboveFlag (s.reg x) (s.reg y)) s)

/-- `SHR Vx` (R168): in place, logical, VF is the old bit 0. -/
def execShr (x : Nibble) (s : State) : Host.Outcome State Fault Refusal :=
  .next (writeResultAndFlag vfWriteOrder x (s.reg x >>> 1) (shrFlag (s.reg x)) s)

/-- `SUBN Vx, Vy` (R169): VF is `Vy > Vx`, strict. -/
def execSubn (x y : Nibble) (s : State) : Host.Outcome State Fault Refusal :=
  .next (writeResultAndFlag vfWriteOrder x (s.reg y - s.reg x) (aboveFlag (s.reg y) (s.reg x)) s)

/-- `SHL Vx` (R170): in place, VF is the old bit 7. -/
def execShl (x : Nibble) (s : State) : Host.Outcome State Fault Refusal :=
  .next (writeResultAndFlag vfWriteOrder x (s.reg x <<< 1) (shlFlag (s.reg x)) s)

/-- `RND Vx, kk` (R171): a free byte masked by `kk`. -/
def execRnd (x : Nibble) (kk : Byte) (s : State) : Host.Outcome State Fault Refusal :=
  .next (s.drawn.setReg x (randByte s &&& kk))

end Sys2Proof.Machine
end

