-- ==== Sys2Proof/Machine/Control.lean ====
section
/-! DEFINITION. Control transfer (spec 41_control_transfer.md) and the unmatched no-operation (40_cycle_and_dispatch.md
R124). Each meaning is step 4 of the Cycle: `pc` is already the address of the instruction plus 2 (R122). -/

namespace Sys2Proof.Machine

/-- `RET` (R140). -/
def execRet (s : State) : Host.Outcome State Fault Refusal := outcomeOf (popPc s)

/-- `JP addr` (R141). -/
def execJp (addr : Addr12) (s : State) : Host.Outcome State Fault Refusal := .next (s.setPc (zextAddr addr))

/-- `CALL addr` (R142). -/
def execCall (addr : Addr12) (s : State) : Host.Outcome State Fault Refusal :=
  match pushPc s with
  | .ok s' => .next (s'.setPc (zextAddr addr))
  | .error f => .fault f

/-- `SE Vx, kk` (R143). -/
def execSeImm (x : Nibble) (kk : Byte) (s : State) : Host.Outcome State Fault Refusal :=
  .next (s.skipIf (s.reg x == kk))

/-- `SNE Vx, kk` (R144). -/
def execSneImm (x : Nibble) (kk : Byte) (s : State) : Host.Outcome State Fault Refusal :=
  .next (s.skipIf (s.reg x != kk))

/-- `SE Vx, Vy` (R145). -/
def execSeReg (x y : Nibble) (s : State) : Host.Outcome State Fault Refusal :=
  .next (s.skipIf (s.reg x == s.reg y))

/-- `SNE Vx, Vy` (R146). -/
def execSneReg (x y : Nibble) (s : State) : Host.Outcome State Fault Refusal :=
  .next (s.skipIf (s.reg x != s.reg y))

/-- `JP V0, addr` (R147): the sum is not reduced to 12 bits. -/
def execJpV0 (addr : Addr12) (s : State) : Host.Outcome State Fault Refusal :=
  .next (s.setPc (zextByte (s.reg 0) + zextAddr addr))

/-- `NOP_UNMATCHED` (R124): nothing, whatever the word. -/
def execNopUnmatched (_word : Word) (s : State) : Host.Outcome State Fault Refusal := .next s

end Sys2Proof.Machine
end

