-- ==== Sys2Proof/Machine/Display.lean ====
section
/-! DEFINITION. Display instructions (spec 44_display.md). -/

namespace Sys2Proof.Machine

/-- `CLS` (R211). -/
def execCls (s : State) : Host.Outcome State Fault Refusal := .next (s.setFb darkFramebuffer)

/-- `DRW Vx, Vy, n` (R212 to R215): the coordinates are read before VF is written; VF is the collision flag, written even
when nothing is drawn. -/
def execDrw (x y n : Nibble) (s : State) : Host.Outcome State Fault Refusal :=
  match drawSprite fbEdgePolicy s.mem s.base (s.spriteX x) (s.spriteY y) n.toNat s.fb with
  | .ok d => .next ((s.setFb d.fb).setReg regF (flagByte d.hit))
  | .error f => .fault f

end Sys2Proof.Machine
end

