-- ==== Sys2Proof/Machine/IndexMemory.lean ====
section
/-! DEFINITION. Index register and memory instructions (spec 43_index_and_memory.md). The last three leave I as it was
(R197). -/

namespace Sys2Proof.Machine

/-- `LD I, addr` (R190). -/
def execLdI (addr : Addr12) (s : State) : Host.Outcome State Fault Refusal := .next (s.setI (zextAddr addr))

/-- `ADD I, Vx` (R191): wraps at 65536 (D19), no flag. -/
def execAddI (x : Nibble) (s : State) : Host.Outcome State Fault Refusal := .next (s.setI (s.I + zextByte (s.reg x)))

/-- `LD F, Vx` (R192). -/
def execLdF (x : Nibble) (s : State) : Host.Outcome State Fault Refusal := .next (s.setI (glyphAddress (s.reg x)))

/-- `LD B, Vx` (R193): hundreds, tens, ones at I, I + 1, I + 2. -/
def execLdB (x : Nibble) (s : State) : Host.Outcome State Fault Refusal :=
  match storeBytes s.base (bcdDigits (s.reg x)) s.mem with
  | .ok m => .next (s.setMem m)
  | .error f => .fault f

/-- `LD [I], Vx` (R195): V0 to Vx at I to I + x. -/
def execStRegs (x : Nibble) (s : State) : Host.Outcome State Fault Refusal :=
  match storeBytes s.base (s.regsUpTo x) s.mem with
  | .ok m => .next (s.setMem m)
  | .error f => .fault f

/-- `LD Vx, [I]` (R196): V0 to Vx from I to I + x. -/
def execLdRegs (x : Nibble) (s : State) : Host.Outcome State Fault Refusal :=
  match loadBytes s.mem s.base (x.toNat + 1) with
  | .ok vs => .next { s with V := setRegsFrom 0 vs s.V }
  | .error f => .fault f

end Sys2Proof.Machine
end

