-- ==== Sys2Proof/Machine/KeypadTimers.lean ====
section
/-! DEFINITION. Keypad and timer instructions (spec 45_keypad_and_timers.md). The tick of the same Cycle follows each of
them (R125, R126); it is step 5 of the Cycle, not part of a meaning. -/

namespace Sys2Proof.Machine

/-- `SKP Vx` (R230). -/
def execSkp (x : Nibble) (s : State) : Host.Outcome State Fault Refusal :=
  match readKey s (s.reg x) with
  | .ok pressed => .next (s.skipIf pressed)
  | .error f => .fault f

/-- `SKNP Vx` (R231). -/
def execSknp (x : Nibble) (s : State) : Host.Outcome State Fault Refusal :=
  match readKey s (s.reg x) with
  | .ok pressed => .next (s.skipIf (!pressed))
  | .error f => .fault f

/-- `LD Vx, DT` (R232). -/
def execLdVxDt (x : Nibble) (s : State) : Host.Outcome State Fault Refusal := .next (s.setReg x s.DT)

/-- `LD Vx, K` (R233): the least pressed key, or back to this instruction. -/
def execLdVxK (x : Nibble) (s : State) : Host.Outcome State Fault Refusal :=
  match leastPressed s.keys with
  | some k => .next (s.setReg x (BitVec.ofNat 8 k))
  | none => .next s.rewind

/-- `LD DT, Vx` (R234). -/
def execLdDtVx (x : Nibble) (s : State) : Host.Outcome State Fault Refusal := .next (s.setDt (s.reg x))

/-- `LD ST, Vx` (R235). -/
def execLdStVx (x : Nibble) (s : State) : Host.Outcome State Fault Refusal := .next (s.setSt (s.reg x))

end Sys2Proof.Machine
end

