-- ==== Sys2Proof/Machine/Cycle.lean ====
section
/-! DEFINITION. The Cycle (spec 40_cycle_and_dispatch.md R120 to R125, R129), and placing an instruction where the next
Cycle fetches it. -/

namespace Sys2Proof.Machine

/-- Step 5 follows an execution that raised no fault (R125, R129). -/
def tickOutcome : Host.Outcome State Fault Refusal → Host.Outcome State Fault Refusal
  | .next s => .next s.tick
  | .fault f => .fault f
  | .refused r => .refused r

/-- Steps 2 to 5 for a fetched opcode: advance, decode, execute, tick. -/
def runOpcode (op : Word) (s : State) : Host.Outcome State Fault Refusal :=
  tickOutcome (exec (decodeWord op) s.advance)

/-- One Cycle (R120): a faulted machine is left as it is; else fetch, advance, decode, execute, tick. -/
def cycle (s : State) : Host.Outcome State Fault Refusal :=
  match s.faulted with
  | some _ => .next s
  | none =>
    match fetch16 s.mem s.pc.toNat with
    | .error f => .fault f
    | .ok op => runOpcode op s

/-- The state with the bytes stored at pc and on, where the next Cycle fetches its opcode; where they do not fit in memory,
the state as it is. -/
def placeAtPc (bytes : List Byte) (s : State) : State :=
  match storeBytes s.pc.toNat bytes s.mem with
  | .ok m => s.setMem m
  | .error _ => s

end Sys2Proof.Machine
end

