-- ==== Sys2Proof/Machine/Step.lean ====
section
/-! DEFINITION. The step of the machine is the Cycle (spec 40_cycle_and_dispatch.md R120), and the instruction word of the
opcode table placed where the step fetches (log 17). -/

namespace Sys2Proof.Machine

/-- One step: one Cycle. -/
def step (s : State) : Host.Outcome State Fault Refusal := cycle s

/-- The state with the instruction whose bits are `w`, numbered as spec/opcode_table.json numbers them, stored at pc. -/
def State.withFetchWord (s : State) (nbits w : Nat) : State := placeAtPc (tableBytes nbits w) s

end Sys2Proof.Machine
end

