-- ==== Sys2Proof/Machine/HostInterface.lean ====
section
/-! DEFINITION. The host's six operations on an instance of the machine (spec 60_exceptions.md R262 to R264,
20_memory.md R71, 70_reset_and_hazards.md R282), each atomic and total: an operation out of its turn is refused, and a
refused operation changes nothing (log 17). A Cycle that raised a fault leaves the machine as `takeFault` says (R251). -/

namespace Sys2Proof.Machine

/-- `ROM_MAX` (R6): 4096 - 512. -/
def romMax : Nat := 3584

/-- How far an instance has come: which operations are in turn (R263, column "when allowed"). -/
inductive HostPhase where
  /-- After Reset: the ROM may be loaded. -/
  | constructed
  /-- After LoadROM: Cycles may run. -/
  | loaded
  /-- After the first Cycle. -/
  | running
  deriving DecidableEq, Repr

/-- An instance of the machine and how far it has come. -/
structure Session where
  phase : HostPhase
  core : State
  deriving DecidableEq, Repr

/-- What the host can do (R263). -/
inductive HostOp where
  | reset
  | loadRom (bytes : List Byte)
  | setKeys (keys : Keypad)
  | cycle
  | readFramebuffer
  | readSoundTimer
  deriving DecidableEq, Repr

/-- What the host gets back (R263, last column). -/
inductive HostReply where
  | nothing
  | framebuffer (fb : Framebuffer)
  | soundTimer (value : Byte)
  deriving DecidableEq, Repr

/-- Why an operation is refused. -/
inductive HostRefusal where
  /-- LoadROM with more than `romMax` bytes (R71, D22). Safe. -/
  | romTooLarge (length : Nat)
  /-- LoadROM a second time or after a Cycle (R263). Safe. -/
  | loadOutOfTurn
  /-- Cycle before LoadROM (R263). Safe. -/
  | cycleBeforeLoad
  /-- The core refused the instruction; no arm of exec does. Safe. -/
  | coreRefused (r : Refusal)
  deriving DecidableEq, Repr

/-- A first instance: `State.reset` with the key flags the host presents. -/
def firstSession (keys : Keypad) : Session := ⟨.constructed, State.reset.setKeys keys⟩

/-- The reset state of an instance constructed where another one was (R45, R263): the key flags are the host's and stay,
and no free value is taken twice (log 22). -/
def freshReset (old : State) : State := { State.reset with keys := old.keys, draws := old.draws }

/-- `mem[0x200 + i] <- bytes[i]` (R71). -/
def loadRom (bytes : List Byte) (s : State) : Except HostRefusal State :=
  if bytes.length ≤ romMax then
    match storeBytes progBase bytes s.mem with
    | .ok m => .ok (s.setMem m)
    | .error _ => .error (.romTooLarge bytes.length)
  else .error (.romTooLarge bytes.length)

/-- One operation of the host. -/
def hostOp (op : HostOp) (h : Session) : Except HostRefusal (Session × HostReply) :=
  match op with
  | .reset => .ok (⟨.constructed, freshReset h.core⟩, .nothing)
  | .loadRom bytes =>
    match h.phase with
    | .constructed =>
      match loadRom bytes h.core with
      | .ok s => .ok (⟨.loaded, s⟩, .nothing)
      | .error r => .error r
    | .loaded => .error .loadOutOfTurn
    | .running => .error .loadOutOfTurn
  | .setKeys keys => .ok ({ h with core := h.core.setKeys keys }, .nothing)
  | .cycle =>
    match h.phase with
    | .constructed => .error .cycleBeforeLoad
    | .loaded | .running =>
      match step h.core with
      | .next s => .ok (⟨.running, s⟩, .nothing)
      | .fault f => .ok (⟨.running, takeFault f h.core⟩, .nothing)
      | .refused r => .error (.coreRefused r)
  | .readFramebuffer => .ok (h, .framebuffer h.core.fb)
  | .readSoundTimer => .ok (h, .soundTimer h.core.ST)

/-- Operations one after another, stopping at the first that is refused (R264: strictly serialised). -/
def hostRun : List HostOp → Session → Except HostRefusal Session
  | [], h => .ok h
  | op :: ops, h =>
    match hostOp op h with
    | .ok (h', _) => hostRun ops h'
    | .error r => .error r

/-- `sound_on = (ST > 0)` (R262). -/
def soundOn (s : State) : Bool := decide (s.ST.toNat > 0)

/-- The alternative `RESET_VALUES = unwritten` (R7, R42 the starred rows, U10; log 21): V, I, the stack slots and memory
outside the font hold unknown values; the other pieces are as at reset. The ROM is loaded over it as over `State.reset`. -/
def unwrittenReset (n : Nat) : State :=
  { State.reset with
    V := Config.unknownV n
    I := Config.unknownI n
    stack := Config.unknownStack n
    mem := Memory.ofContent (fun addr =>
      if fontBase ≤ addr ∧ addr < fontBase + fontset.length then unlisted addr else Config.unknownMem n addr)
    draws := n + 1 }

end Sys2Proof.Machine
end

