-- ==== Sys2Proof/Safety.lean ====
section
/-! DEFINITION. What counts as a good state and a good run, in the terms claims use. -/

namespace Sys2Proof.Machine

/-- The instruction the next Cycle would decode, if its two bytes are in memory (R61, R62). -/
def nextInstr (s : State) : Option Instr :=
  match fetch16 s.mem s.pc.toNat with
  | .ok op => some (decodeWord op)
  | .error _ => none

/-- A run has ended (R266, D18; log 20): the machine is not faulted and the next instruction is `JP pc`. -/
def finished (s : State) : Bool :=
  s.faulted == none &&
    match nextInstr s with
    | some (.jp addr) => zextAddr addr == s.pc
    | _ => false

/-- One of the 960 decode-ambiguous words (R99, U7): the two readings of families 0x0 and 0xE differ. A cautious claim
assumes that none is executed (log 2). -/
def decodeAmbiguous (op : Word) : Bool := decodeWith .lowByte op != decodeWith .lowNibble op

/-- The flag-writing forms that name VF as an operand (U6): their result rests on decisions D9 and D10. A cautious claim
assumes that none is executed (log 10). -/
def namesVf : Instr → Bool
  | .addReg x y => x == regF || y == regF
  | .sub x y => x == regF || y == regF
  | .subn x y => x == regF || y == regF
  | .shr x => x == regF
  | .shl x => x == regF
  | .drw x y _ => x == regF || y == regF
  | .cls | .ret | .jp _ | .call _ | .seImm _ _ | .sneImm _ _ | .seReg _ _ | .ldImm _ _ | .addImm _ _ | .ldReg _ _
  | .orReg _ _ | .andReg _ _ | .xorReg _ _ | .sneReg _ _ | .ldI _ | .jpV0 _ | .rnd _ _ | .skp _ | .sknp _ | .ldVxDt _
  | .ldVxK _ | .ldDtVx _ | .ldStVx _ | .addI _ | .ldF _ | .ldB _ | .stRegs _ | .ldRegs _ | .nopUnmatched _ => false

/-- The next Cycle rests on no open reading of R7: its opcode is not decode-ambiguous and it names VF in no flag-writing
form. -/
def cautious (s : State) : Bool :=
  match fetch16 s.mem s.pc.toNat with
  | .ok op => !decodeAmbiguous op && !namesVf (decodeWord op)
  | .error _ => true

/-- The next Cycle raises no fault: what a claim about a program has to prove (R251). -/
def cycleSafe (s : State) : Prop := s.faulted = none ∧ ∃ t, step s = .next t

/-- `k` Cycles with the key flags as they stand, stopping at the first fault or refusal. -/
def cycles : Nat → State → Host.Outcome State Fault Refusal
  | 0, s => .next s
  | k + 1, s =>
    match step s with
    | .next t => cycles k t
    | .fault f => .fault f
    | .refused r => .refused r

/-- The bounds R28 gives the program counter: no return address is above 4096 and pc is at most 0x10FE. -/
abbrev pcReach (s : State) : Prop := s.pc.toNat ≤ 0x10FE ∧ ∀ slot ∈ s.stack.toList, slot.toNat ≤ 4096

/-- The invariant of an unfaulted machine: memory in canonical form, pc within R28's bounds. -/
abbrev goodState (s : State) : Prop := Memory.wf s.mem ∧ (s.faulted = none → pcReach s)

end Sys2Proof.Machine
end

