-- ==== Sys2Proof/Certificates/Slice0/Obligations.lean ====
section
/-! DEFINITION. What is claimed of the machine, one proposition per obligation. In every statement about exec the state is
the one step 4 of the Cycle starts from, so its pc is the address of the instruction plus 2 (spec 40_cycle_and_dispatch.md
R122). OBLIGATIONS.json says which rule or section each one formalises. -/

namespace Sys2Proof.Claims

open Sys2Proof.Machine

/-- Every byte of memory reads as before. -/
def sameMemory (s t : State) : Prop := ∀ a, Memory.read t.mem a = Memory.read s.mem a

/-- Nothing but general registers changed. -/
def onlyRegs (s t : State) : Prop := sameMemory s t ∧ t = { s with V := t.V }

/-- Nothing but the program counter changed. -/
def onlyPc (s t : State) : Prop := sameMemory s t ∧ t = { s with pc := t.pc }

/-- Nothing but the index register changed. -/
def onlyIndex (s t : State) : Prop := sameMemory s t ∧ t = { s with I := t.I }

/-- Every general register but `x` is as before. -/
def keepsOthers (x : Nibble) (s t : State) : Prop := ∀ z, z ≠ x → t.reg z = s.reg z

/-- Every general register but `x` and VF is as before. -/
def keepsOthersAndVf (x : Nibble) (s t : State) : Prop := ∀ z, z ≠ x → z ≠ 0xF → t.reg z = s.reg z

/-- Every word with the row's fixed bits decodes to the instruction of its operand fields (R91, R95). Every numeral given
to it is the spec's general knowledge (K1), the model's log 1. -/
def decodesAs (mask pattern : Word) (i : Word → Instr) : Prop := ∀ op : Word, op &&& mask = pattern → decodeWord op = i op

/-- The bits of a word that its instruction ignores (R96, R100). -/
def ignoredBits : Instr → Word
  | .cls | .ret => 0x0F00
  | .seReg _ _ | .sneReg _ _ => 0x000F
  | .shr _ | .shl _ => 0x00F0
  | .jp _ | .call _ | .seImm _ _ | .sneImm _ _ | .ldImm _ _ | .addImm _ _ | .ldReg _ _ | .orReg _ _ | .andReg _ _
  | .xorReg _ _ | .addReg _ _ | .sub _ _ | .subn _ _ | .ldI _ | .jpV0 _ | .rnd _ _ | .drw _ _ _ | .skp _ | .sknp _
  | .ldVxDt _ | .ldVxK _ | .ldDtVx _ | .ldStVx _ | .addI _ | .ldF _ | .ldB _ | .stRegs _ | .ldRegs _
  | .nopUnmatched _ => 0x0000

/-- The program counter after the Cycle that executes `i` in `s` and raises no fault, by the table of R27; the
instruction's address is `s.pc`. -/
def pcAfter (i : Instr) (s : State) : Word :=
  match i with
  | .jp addr => addr.setWidth 16
  | .call addr => addr.setWidth 16
  | .ret => if h : 0 < s.sp.val then s.stack[s.sp.val - 1]'(by omega) else s.pc + 2
  | .jpV0 addr => (s.reg 0).setWidth 16 + addr.setWidth 16
  | .seImm x kk => if s.reg x = kk then s.pc + 4 else s.pc + 2
  | .sneImm x kk => if s.reg x ≠ kk then s.pc + 4 else s.pc + 2
  | .seReg x y => if s.reg x = s.reg y then s.pc + 4 else s.pc + 2
  | .sneReg x y => if s.reg x ≠ s.reg y then s.pc + 4 else s.pc + 2
  | .skp x => if s.keys.toList.getD (s.reg x).toNat false = true then s.pc + 4 else s.pc + 2
  | .sknp x => if s.keys.toList.getD (s.reg x).toNat false = false then s.pc + 4 else s.pc + 2
  | .ldVxK _ => if true ∈ s.keys.toList then s.pc + 2 else s.pc
  | .cls | .ldImm _ _ | .addImm _ _ | .ldReg _ _ | .orReg _ _ | .andReg _ _ | .xorReg _ _ | .addReg _ _ | .sub _ _
  | .shr _ | .subn _ _ | .shl _ | .ldI _ | .rnd _ _ | .drw _ _ _ | .ldVxDt _ | .ldDtVx _ | .ldStVx _ | .addI _ | .ldF _
  | .ldB _ | .stRegs _ | .ldRegs _ | .nopUnmatched _ => s.pc + 2

/-- The column and row a draw starts at (R212). -/
def xPos (s : State) (x : Nibble) : Nat := (s.reg x).toNat % 64
def yPos (s : State) (y : Nibble) : Nat := (s.reg y).toNat % 32

/-- The sprite bit at row `row`, column `col` is set: bit `7 - col` of the byte at `I + row` (R210). -/
def bitSet (s : State) (row col : Nat) : Prop := (Memory.read s.mem (s.I.toNat + row)).getLsbD (7 - col) = true

/-- The sprite row is in memory and its set bits land inside the 64 by 32 grid. -/
def rowFits (s : State) (x y : Nibble) (row : Nat) : Prop :=
  s.I.toNat + row ≤ 4095 ∧ ∀ col < 8, bitSet s row col → xPos s x + col ≤ 63 ∧ yPos s y + row ≤ 31

/-- A set bit of the first `n` sprite rows lands on the cell in row `cy`, column `cx`. -/
def touches (s : State) (x y n : Nibble) (cy cx : Nat) : Prop :=
  ∃ row < n.toNat, ∃ col < 8, bitSet s row col ∧ cy = yPos s y + row ∧ cx = xPos s x + col

/-- The bytes of the glyphs of R43, top row first. -/
def glyphs : List (List Byte) :=
  [[0xF0, 0x90, 0x90, 0x90, 0xF0], [0x20, 0x60, 0x20, 0x20, 0x70], [0xF0, 0x10, 0xF0, 0x80, 0xF0],
   [0xF0, 0x10, 0xF0, 0x10, 0xF0], [0x90, 0x90, 0xF0, 0x10, 0x10], [0xF0, 0x80, 0xF0, 0x10, 0xF0],
   [0xF0, 0x80, 0xF0, 0x90, 0xF0], [0xF0, 0x10, 0x20, 0x40, 0x40]] ++
  [[0xF0, 0x90, 0xF0, 0x90, 0xF0], [0xF0, 0x90, 0xF0, 0x10, 0xF0], [0xF0, 0x90, 0xF0, 0x90, 0x90],
   [0xE0, 0x90, 0xE0, 0x90, 0xE0], [0xF0, 0x80, 0x80, 0x80, 0xF0], [0xE0, 0x90, 0x90, 0x90, 0xE0],
   [0xF0, 0x80, 0xF0, 0x80, 0xF0], [0xF0, 0x80, 0xF0, 0x80, 0x80]]

end Sys2Proof.Claims

open Sys2Proof Sys2Proof.Machine Sys2Proof.Claims

/-! ## The Cycle -/

/-- A step of an unfaulted machine whose two bytes at pc decode to `i` is `i` executed with pc advanced by 2, then one tick
of each timer; a fault of `i` is the fault of the step, and the tick does not happen (R120 to R123, R125, R129). -/
def Obligations.StepRunsDecodedInstruction : Prop :=
  ∀ (s : State) (i : Instr) (rest : List Byte), s.faulted = none → s.pc.toNat ≤ 4094 →
    decodeBytes [Memory.read s.mem s.pc.toNat, Memory.read s.mem (s.pc.toNat + 1)] = .ok (i, rest) →
    (∀ u, exec i { s with pc := s.pc + 2 } = .next u →
      step s = .next { u with
        DT := if u.DT = 0 then 0 else u.DT - 1
        ST := if u.ST = 0 then 0 else u.ST - 1 }) ∧
    (∀ f, exec i { s with pc := s.pc + 2 } = .fault f → step s = .fault f)

/-- A fetch that reaches above address 4095 faults at the first address above it and nothing else happens: 4096 for
pc = 4095, pc itself beyond (R62, the spec's decision D5). -/
def Obligations.FetchAboveMemoryFaults : Prop :=
  ∀ s : State, s.faulted = none → 4094 < s.pc.toNat →
    step s = .fault (.memFault (if s.pc.toNat = 4095 then 4096 else s.pc.toNat))

/-- A Cycle on a faulted machine changes nothing (R129, the spec's decision D15). -/
def Obligations.FaultedMachineStays : Prop :=
  ∀ s : State, s.faulted ≠ none → step s = .next s

/-- The tick comes after the instruction's effect, exactly once per Cycle that does not fault, each timer on its own, and
a timer at 0 stays 0 (R125, after the advance of R122). That it has no condition on the instruction is the inference R125
marks as its own, and that a timer changes otherwise only by its load is R31's list of writers. -/
def Obligations.TimersTickOncePerCycle : Prop :=
  ∀ s t : State, s.faulted = none → step s = .next t →
    ∃ i u, nextInstr s = some i ∧ exec i { s with pc := s.pc + 2 } = .next u ∧
      t = { u with DT := t.DT, ST := t.ST } ∧
      t.DT.toNat = u.DT.toNat - 1 ∧ t.ST.toNat = u.ST.toNat - 1 ∧
      ((∀ x, i ≠ .ldDtVx x) → t.DT.toNat = s.DT.toNat - 1) ∧
      ((∀ x, i ≠ .ldStVx x) → t.ST.toNat = s.ST.toNat - 1)

/-- The program counter after every Cycle that raises no fault, by the table of R27 (sums wrap at 65536, R28, the spec's
decision D19). -/
def Obligations.ProgramCounterAfterEveryInstruction : Prop :=
  ∀ (s t : State) (i : Instr), s.faulted = none → nextInstr s = some i → step s = .next t → t.pc = pcAfter i s

/-- A finished machine (unfaulted, `JP pc` at pc) only runs its timers down: the next Cycle completes, leaves every other
piece of state as it was, and leaves the machine finished (R130, R266, the spec's decision D18). -/
def Obligations.JumpToSelfOnlyRunsTimers : Prop :=
  ∀ s : State, finished s = true →
    ∃ t, step s = .next t ∧ t = { s with DT := t.DT, ST := t.ST } ∧ sameMemory s t ∧
      t.DT.toNat = s.DT.toNat - 1 ∧ t.ST.toNat = s.ST.toNat - 1 ∧ finished t = true

/-- The delay timer counts Cycles: after `k` Cycles none of which loads it, it is the old value less `k`, or 0 (R126,
R287). The run is that of a host that sets no keys between these Cycles: `cycles` keeps the key flags, which log 6 calls
unsafe for a claim over several steps. -/
def Obligations.DelayTimerCountsCycles : Prop :=
  ∀ (k : Nat) (s t : State), s.faulted = none → cycles k s = .next t →
    (∀ j < k, ∀ u : State, cycles j s = .next u → ∀ x, nextInstr u ≠ some (.ldDtVx x)) →
    t.DT.toNat = s.DT.toNat - k

/-! ## Decoding and encoding -/

/-- Words of families 0x0, 0x2, 0x5, 0x8, 0xB, 0xD, 0xE and 0xF, written out from R95, decode to the instructions they stand
for (numerals: log 1), and a single byte is rejected (R90). -/
def Obligations.SampleWordsDecode : Prop :=
  decodeWord 0b0000000011100000 = .cls ∧ decodeWord 0b0000101011101110 = .ret ∧
  decodeWord 0b0010001100000000 = .call 0x300 ∧ decodeWord 0b0101000100101011 = .seReg 1 2 ∧
  decodeWord 0b1000000100100101 = .sub 1 2 ∧ decodeWord 0b1000000100101110 = .shl 1 ∧
  decodeWord 0b1011111111111111 = .jpV0 0xFFF ∧ decodeWord 0b1101000100100101 = .drw 1 2 5 ∧
  decodeWord 0b1110001010100001 = .sknp 2 ∧ decodeWord 0b1111001001010101 = .stRegs 2 ∧
  decodeWord 0b1000000000001000 = .nopUnmatched 0x8008 ∧ decodeBytes [0x60] = .error (.truncated 1)

/-- Every well-formed instruction, with every operand at every value its field admits, is what its own word decodes to, as
a word and as two bytes (R91, R95; the numeric values are the spec's general knowledge, log 1; that a decode-ambiguous word
is a well-formed no-operation is the reading of log 2). -/
def Obligations.DecodeOfEncode : Prop :=
  ∀ i : Instr, i.wellFormed = true → decodeWord (encode i) = i ∧ decodeBytes (encodeBytes i) = .ok (i, [])

/-- Every word is one of 35 behaviours: either exactly one row of R95 matches it and the decoder gives that row's
instruction, or none does and it is the no-operation (R101, R103; log 1, log 2). -/
def Obligations.DecodeFollowsOpcodeTable : Prop :=
  ∀ op : Word, (decodeWord op).wellFormed = true ∧
    ((∃ row, opcodeTable.filter (rowMatches op) = [row] ∧ mnemonicOf (decodeWord op) = row.mnemonic) ∨
     (opcodeTable.filter (rowMatches op) = [] ∧ decodeWord op = .nopUnmatched op))

/-- No bit that R91 makes an operand or a selector is lost: encoding what a word decodes to gives the word back with its
ignored bits cleared (R96, R100, R104; log 3; for the decode-ambiguous words the reading of log 2). -/
def Obligations.EncodeOfDecodeClearsIgnoredBits : Prop :=
  ∀ op : Word, encode (decodeWord op) = op &&& ~~~ignoredBits (decodeWord op)

/-! ## Invariants -/

/-- Every step keeps memory in its canonical form (the model's form of R33's 4096 bytes, log 13). -/
def Obligations.StepKeepsMemoryCanonical : Prop :=
  ∀ s t : State, Memory.wf s.mem → step s = .next t → Memory.wf t.mem

/-- No step sets pc above 0x10FE or leaves a return address above 4096 (R28, derived there from the targets). -/
def Obligations.StepKeepsProgramCounterReach : Prop :=
  ∀ s t : State, s.faulted = none → pcReach s → step s = .next t → pcReach t

/-- The reset state meets both invariants. -/
def Obligations.ResetMeetsInvariants : Prop :=
  Memory.wf State.reset.mem ∧ pcReach State.reset ∧ goodState State.reset

/-- Every operation of the host that is not refused keeps the invariant of an unfaulted machine: memory canonical, and pc
and return addresses within R28's bounds while no fault is latched (R263, log 9, log 17). -/
def Obligations.HostOperationsKeepGoodState : Prop :=
  ∀ (op : HostOp) (h h' : Session) (reply : HostReply), goodState h.core → hostOp op h = .ok (h', reply) →
    goodState h'.core

/-! ## Reset and the host -/

/-- The state after reset by the table of R42: the framebuffer dark and glyph 0 are the source's; pc, sp, the timers, the
zeros are the spec's decision D12 (log 4) and glyphs 1 to F its general knowledge (log 5). -/
def Obligations.ResetState : Prop :=
  (∀ z, State.reset.reg z = 0) ∧ State.reset.I = 0 ∧ State.reset.pc = 0x200 ∧ State.reset.sp.val = 0 ∧
  (∀ slot ∈ State.reset.stack.toList, slot = 0) ∧ State.reset.DT = 0 ∧ State.reset.ST = 0 ∧
  State.reset.faulted = none ∧
  (∀ y < 32, ∀ x < 64, fbCell State.reset.fb y x = false) ∧
  (∀ d < 16, ∀ k < 5, Memory.read State.reset.mem (0x050 + 5 * d + k) = (glyphs.getD d []).getD k 0) ∧
  (∀ a, a < 0x050 ∨ 0x09F < a → Memory.read State.reset.mem a = 0)

/-- LoadROM of at most 3584 bytes on a constructed instance puts exactly them at 0x200 and on and touches nothing else; a
longer image is refused (R71, the refusal is the spec's decision D22). -/
def Obligations.RomLoadPlacesBytes : Prop :=
  ∀ (bytes : List Byte) (h : Session), h.phase = .constructed → Memory.wf h.core.mem →
    (bytes.length ≤ 3584 →
      ∃ h', hostOp (.loadRom bytes) h = .ok (h', .nothing) ∧ h'.phase = .loaded ∧
        h'.core = { h.core with mem := h'.core.mem } ∧
        (∀ k, (hk : k < bytes.length) → Memory.read h'.core.mem (0x200 + k) = bytes[k]) ∧
        (∀ a, a < 0x200 ∨ 0x200 + bytes.length ≤ a → Memory.read h'.core.mem a = Memory.read h.core.mem a)) ∧
    (3584 < bytes.length → hostOp (.loadRom bytes) h = .error (.romTooLarge bytes.length))

/-- A fault raised by a Cycle is latched: the mark is set to it, further Cycles change nothing, and only a reset, which is
always allowed, clears it (R39, R129, R251, the spec's decision D15; log 8). -/
def Obligations.FaultIsLatchedUntilReset : Prop :=
  ∀ (h : Session) (f : Fault), h.phase ≠ .constructed → step h.core = .fault f →
    ∃ h', hostOp .cycle h = .ok (h', .nothing) ∧ h'.core.faulted = some f ∧ h'.core.keys = h.core.keys ∧
      hostOp .cycle h' = .ok (h', .nothing) ∧
      ∃ h'', hostOp .reset h' = .ok (h'', .nothing) ∧ h''.phase = .constructed ∧ h''.core.faulted = none

/-- SetKeys changes the key flags only; the two reads give the framebuffer and the sound timer and change nothing; a
Cycle before LoadROM and a LoadROM after it are refused (R263, R264, the spec's decision D1). -/
def Obligations.HostReadsAndKeysTouchNothingElse : Prop :=
  ∀ (h : Session) (keys : Keypad) (bytes : List Byte),
    hostOp (.setKeys keys) h = .ok ({ h with core := { h.core with keys := keys } }, .nothing) ∧
    hostOp .readFramebuffer h = .ok (h, .framebuffer h.core.fb) ∧
    hostOp .readSoundTimer h = .ok (h, .soundTimer h.core.ST) ∧
    (h.phase = .constructed → hostOp .cycle h = .error .cycleBeforeLoad) ∧
    (h.phase ≠ .constructed → hostOp (.loadRom bytes) h = .error .loadOutOfTurn)

/-! ## Memory -/

/-- MemWrite stores its byte and changes no other, MemRead returns it; both reach every address from 0 to 4095, and the
canonical form is kept (R60). -/
def Obligations.MemoryReadAfterWrite : Prop :=
  ∀ (m : Memory) (a : Nat) (v : Byte), Memory.wf m → a ≤ 4095 →
    ∃ m', memWrite m a v = .ok m' ∧ Memory.wf m' ∧ memRead m' a = .ok v ∧
      ∀ b, b ≤ 4095 → b ≠ a → memRead m' b = memRead m b

/-- Stores are seen by the next fetch: two registers stored side by side are fetched as one opcode, the byte at the lower
address in bits 15 to 8 (R61, R64, R76). -/
def Obligations.StoredBytesAreFetched : Prop :=
  ∀ (x z w : Nibble) (s t : State), Memory.wf s.mem → exec (.stRegs x) s = .next t →
    z.toNat + 1 = w.toNat → w.toNat ≤ x.toNat →
    ∃ op, fetch16 t.mem (s.I.toNat + z.toNat) = .ok op ∧
      op.toNat = (s.reg z).toNat * 256 + (s.reg w).toNat

/-! ## Control transfer -/

/-- JP and JP V0 complete with pc at their target, which is not reduced to 12 bits, and change nothing else (R141, R147). -/
def Obligations.JumpsSetProgramCounter : Prop :=
  decodesAs 0xF000 0x1000 (fun op => .jp (opAddr op)) ∧
  decodesAs 0xF000 0xB000 (fun op => .jpV0 (opAddr op)) ∧
  ∀ (addr : Addr12) (s : State),
    (∃ t, exec (.jp addr) s = .next t ∧ t.pc.toNat = addr.toNat ∧ onlyPc s t) ∧
    (∃ t, exec (.jpV0 addr) s = .next t ∧ t.pc.toNat = (s.reg 0).toNat + addr.toNat ∧ onlyPc s t)

/-- SE and SNE, immediate and register, complete with pc two further exactly when their comparison holds, and change
nothing else (R143 to R146). -/
def Obligations.ComparisonsSkip : Prop :=
  decodesAs 0xF000 0x3000 (fun op => .seImm (opX op) (opKk op)) ∧
  decodesAs 0xF000 0x4000 (fun op => .sneImm (opX op) (opKk op)) ∧
  decodesAs 0xF000 0x5000 (fun op => .seReg (opX op) (opY op)) ∧
  decodesAs 0xF000 0x9000 (fun op => .sneReg (opX op) (opY op)) ∧
  ∀ (x y : Nibble) (kk : Byte) (s : State),
    (∃ t, exec (.seImm x kk) s = .next t ∧ onlyPc s t ∧
      t.pc.toNat = if (s.reg x).toNat = kk.toNat then (s.pc.toNat + 2) % 65536 else s.pc.toNat) ∧
    (∃ t, exec (.sneImm x kk) s = .next t ∧ onlyPc s t ∧
      t.pc.toNat = if (s.reg x).toNat = kk.toNat then s.pc.toNat else (s.pc.toNat + 2) % 65536) ∧
    (∃ t, exec (.seReg x y) s = .next t ∧ onlyPc s t ∧
      t.pc.toNat = if (s.reg x).toNat = (s.reg y).toNat then (s.pc.toNat + 2) % 65536 else s.pc.toNat) ∧
    (∃ t, exec (.sneReg x y) s = .next t ∧ onlyPc s t ∧
      t.pc.toNat = if (s.reg x).toNat = (s.reg y).toNat then s.pc.toNat else (s.pc.toNat + 2) % 65536)

/-- CALL with a free slot pushes pc and goes to its target; with sixteen slots in use it faults (R142; the fault is the
spec's decision D6). -/
def Obligations.CallPushesReturnAddress : Prop :=
  ∀ (addr : Addr12) (s : State),
    (∀ h : s.sp.val < 16, ∃ t, exec (.call addr) s = .next t ∧ t.pc.toNat = addr.toNat ∧ t.sp.val = s.sp.val + 1 ∧
      t.stack[s.sp.val] = s.pc ∧ (∀ k, (hk : k < 16) → k ≠ s.sp.val → t.stack[k] = s.stack[k]) ∧
      sameMemory s t ∧ t = { s with pc := t.pc, sp := t.sp, stack := t.stack }) ∧
    (s.sp.val = 16 → exec (.call addr) s = .fault .stackOverflow)

/-- RET with a slot in use takes pc from the newest one and leaves every slot as it was; with none it faults (R140; the
fault is the spec's decision D6). -/
def Obligations.ReturnPopsProgramCounter : Prop :=
  ∀ s : State,
    (∀ h : 0 < s.sp.val, ∃ t, exec .ret s = .next t ∧ t.sp.val = s.sp.val - 1 ∧
      t.pc = s.stack[s.sp.val - 1]'(by omega) ∧ sameMemory s t ∧ t = { s with pc := t.pc, sp := t.sp }) ∧
    (s.sp.val = 0 → exec .ret s = .fault .stackUnderflow)

/-- A RET executed with the call stack as a CALL left it continues at the pc that was current when the CALL executed, the
address after the CALL, and leaves the stack pointer as it was before the CALL (R149, conflict C2). -/
def Obligations.CallThenReturnRestoresPc : Prop :=
  ∀ (addr : Addr12) (s u v : State), exec (.call addr) s = .next u → v.stack = u.stack → v.sp = u.sp →
    ∃ t, exec .ret v = .next t ∧ t.pc = s.pc ∧ t.sp = s.sp

/-! ## Load, arithmetic, logic, shift, random -/

/-- LD Vx, kk and LD Vx, Vy complete with the value in Vx and change no other register, flag or state (R160, R162). -/
def Obligations.LoadsSetDestination : Prop :=
  decodesAs 0xF000 0x6000 (fun op => .ldImm (opX op) (opKk op)) ∧
  decodesAs 0xF00F 0x8000 (fun op => .ldReg (opX op) (opY op)) ∧
  ∀ (x y : Nibble) (kk : Byte) (s : State),
    (∃ t, exec (.ldImm x kk) s = .next t ∧ t.reg x = kk ∧ keepsOthers x s t ∧ onlyRegs s t) ∧
    (∃ t, exec (.ldReg x y) s = .next t ∧ t.reg x = s.reg y ∧ keepsOthers x s t ∧ onlyRegs s t)

/-- ADD Vx, kk completes with the sum modulo 256 in Vx; VF keeps its value unless it is Vx (R161). -/
def Obligations.AddImmediateWraps : Prop :=
  decodesAs 0xF000 0x7000 (fun op => .addImm (opX op) (opKk op)) ∧
  ∀ (x : Nibble) (kk : Byte) (s : State),
    ∃ t, exec (.addImm x kk) s = .next t ∧ (t.reg x).toNat = ((s.reg x).toNat + kk.toNat) % 256 ∧
      keepsOthers x s t ∧ onlyRegs s t

/-- OR, AND, XOR complete bit by bit in Vx and leave VF alone unless it is Vx (R163 to R165). -/
def Obligations.LogicActsOnEveryBit : Prop :=
  decodesAs 0xF00F 0x8001 (fun op => .orReg (opX op) (opY op)) ∧
  decodesAs 0xF00F 0x8002 (fun op => .andReg (opX op) (opY op)) ∧
  decodesAs 0xF00F 0x8003 (fun op => .xorReg (opX op) (opY op)) ∧
  ∀ (x y : Nibble) (s : State),
    (∃ t, exec (.orReg x y) s = .next t ∧ keepsOthers x s t ∧ onlyRegs s t ∧
      ∀ b < 8, (t.reg x).getLsbD b = ((s.reg x).getLsbD b || (s.reg y).getLsbD b)) ∧
    (∃ t, exec (.andReg x y) s = .next t ∧ keepsOthers x s t ∧ onlyRegs s t ∧
      ∀ b < 8, (t.reg x).getLsbD b = ((s.reg x).getLsbD b && (s.reg y).getLsbD b)) ∧
    (∃ t, exec (.xorReg x y) s = .next t ∧ keepsOthers x s t ∧ onlyRegs s t ∧
      ∀ b < 8, (t.reg x).getLsbD b = ((s.reg x).getLsbD b ^^ (s.reg y).getLsbD b))

/-- ADD Vx, Vy completes with the sum modulo 256 in Vx and VF the carry; when Vx is VF the flag is what remains, and the
operands are the old values (R166; the order of the two writes is the spec's decision D9, log 10). -/
def Obligations.AddSetsCarry : Prop :=
  ∀ (x y : Nibble) (s : State), ∃ t, exec (.addReg x y) s = .next t ∧
    (x ≠ 0xF → (t.reg x).toNat = ((s.reg x).toNat + (s.reg y).toNat) % 256) ∧
    (t.reg 0xF).toNat = (if (s.reg x).toNat + (s.reg y).toNat > 255 then 1 else 0) ∧
    keepsOthersAndVf x s t ∧ onlyRegs s t

/-- SUB and SUBN complete with the difference modulo 256 in Vx and VF the strict comparison of the old values: 0 when they
are equal (R167, R169; the order of the two writes is the spec's decision D9, log 10). -/
def Obligations.SubtractionsSetStrictFlag : Prop :=
  ∀ (x y : Nibble) (s : State),
    (∃ t, exec (.sub x y) s = .next t ∧
      (x ≠ 0xF → (t.reg x).toNat = ((s.reg x).toNat + 256 - (s.reg y).toNat) % 256) ∧
      (t.reg 0xF).toNat = (if (s.reg x).toNat > (s.reg y).toNat then 1 else 0) ∧
      keepsOthersAndVf x s t ∧ onlyRegs s t) ∧
    (∃ t, exec (.subn x y) s = .next t ∧
      (x ≠ 0xF → (t.reg x).toNat = ((s.reg y).toNat + 256 - (s.reg x).toNat) % 256) ∧
      (t.reg 0xF).toNat = (if (s.reg y).toNat > (s.reg x).toNat then 1 else 0) ∧
      keepsOthersAndVf x s t ∧ onlyRegs s t)

/-- SHR and SHL shift Vx in place by one, logically, and VF is the bit shifted out (R168, R170; the order of the two writes
is the spec's decision D9, log 10). -/
def Obligations.ShiftsSaveTheBit : Prop :=
  ∀ (x : Nibble) (s : State),
    (∃ t, exec (.shr x) s = .next t ∧
      (x ≠ 0xF → (t.reg x).toNat = (s.reg x).toNat / 2) ∧
      (t.reg 0xF).toNat = (s.reg x).toNat % 2 ∧ keepsOthersAndVf x s t ∧ onlyRegs s t) ∧
    (∃ t, exec (.shl x) s = .next t ∧
      (x ≠ 0xF → (t.reg x).toNat = (s.reg x).toNat * 2 % 256) ∧
      (t.reg 0xF).toNat = (s.reg x).toNat / 128 ∧ keepsOthersAndVf x s t ∧ onlyRegs s t)

/-- RND completes with the next free byte, whatever it is, masked by kk; that byte is not taken again (R38, R171, the
spec's decision D14; log 7). -/
def Obligations.RandomByteIsMasked : Prop :=
  ∀ (x : Nibble) (kk : Byte) (s : State), ∃ t, exec (.rnd x kk) s = .next t ∧
    (∀ b < 8, (t.reg x).getLsbD b = ((Config.randByte s.draws).getLsbD b && kk.getLsbD b)) ∧
    t.draws = s.draws + 1 ∧ keepsOthers x s t ∧ sameMemory s t ∧ t = { s with V := t.V, draws := t.draws }

/-! ## Index register and memory instructions -/

/-- LD I, addr and LD F, Vx complete with I the immediate, and 0x050 plus five times the whole byte (R190, R192). -/
def Obligations.IndexLoads : Prop :=
  decodesAs 0xF000 0xA000 (fun op => .ldI (opAddr op)) ∧
  decodesAs 0xF0FF 0xF029 (fun op => .ldF (opX op)) ∧
  ∀ (addr : Addr12) (x : Nibble) (s : State),
    (∃ t, exec (.ldI addr) s = .next t ∧ t.I.toNat = addr.toNat ∧ onlyIndex s t) ∧
    (∃ t, exec (.ldF x) s = .next t ∧ t.I.toNat = 0x050 + 5 * (s.reg x).toNat ∧ onlyIndex s t)

/-- ADD I, Vx completes with the sum modulo 65536 in I, whatever it is, and touches no flag (R191; the wrap is the spec's
decision D19, log 14). -/
def Obligations.IndexAddWraps : Prop :=
  ∀ (x : Nibble) (s : State),
    ∃ t, exec (.addI x) s = .next t ∧ t.I.toNat = (s.I.toNat + (s.reg x).toNat) % 65536 ∧ onlyIndex s t

/-- LD B, Vx with its three bytes in memory completes with the decimal digits of Vx at I, I + 1, I + 2 and every other byte
as before (R193; that it needs I + 2 in memory is the spec's decision D5). -/
def Obligations.BcdStoresDigits : Prop :=
  ∀ (x : Nibble) (s : State), Memory.wf s.mem → s.I.toNat + 2 ≤ 4095 →
    ∃ t, exec (.ldB x) s = .next t ∧
      (Memory.read t.mem s.I.toNat).toNat = (s.reg x).toNat / 100 ∧
      (Memory.read t.mem (s.I.toNat + 1)).toNat = (s.reg x).toNat / 10 % 10 ∧
      (Memory.read t.mem (s.I.toNat + 2)).toNat = (s.reg x).toNat % 10 ∧
      (∀ a, a < s.I.toNat ∨ s.I.toNat + 2 < a → Memory.read t.mem a = Memory.read s.mem a) ∧
      t = { s with mem := t.mem }

/-- LD [I], Vx with its bytes in memory completes with register z at I + z for every z up to x and every other byte as
before (R195; that it needs I + x in memory is the spec's decision D5). -/
def Obligations.StoreRegistersWritesEach : Prop :=
  ∀ (x : Nibble) (s : State), Memory.wf s.mem → s.I.toNat + x.toNat ≤ 4095 →
    ∃ t, exec (.stRegs x) s = .next t ∧
      (∀ z : Nibble, z.toNat ≤ x.toNat → Memory.read t.mem (s.I.toNat + z.toNat) = s.reg z) ∧
      (∀ a, a < s.I.toNat ∨ s.I.toNat + x.toNat < a → Memory.read t.mem a = Memory.read s.mem a) ∧
      t = { s with mem := t.mem }

/-- LD Vx, [I] with its bytes in memory completes with the byte at I + z in register z for every z up to x and every other
register as before (R196; that it needs I + x in memory is the spec's decision D5). -/
def Obligations.LoadRegistersReadsEach : Prop :=
  ∀ (x : Nibble) (s : State), s.I.toNat + x.toNat ≤ 4095 →
    ∃ t, exec (.ldRegs x) s = .next t ∧
      (∀ z : Nibble, z.toNat ≤ x.toNat → t.reg z = Memory.read s.mem (s.I.toNat + z.toNat)) ∧
      (∀ z : Nibble, x.toNat < z.toNat → t.reg z = s.reg z) ∧ onlyRegs s t

/-- LD B, LD [I] and LD Vx, [I] fault at their first address above 4095 when one of their bytes is there (R66, R193, R195,
R196; the spec's decision D5). -/
def Obligations.MemoryInstructionsFaultAboveMemory : Prop :=
  ∀ (x : Nibble) (s : State),
    (4095 < s.I.toNat + 2 →
      exec (.ldB x) s = .fault (.memFault (if s.I.toNat ≤ 4095 then 4096 else s.I.toNat))) ∧
    (4095 < s.I.toNat + x.toNat →
      exec (.stRegs x) s = .fault (.memFault (if s.I.toNat ≤ 4095 then 4096 else s.I.toNat)) ∧
      exec (.ldRegs x) s = .fault (.memFault (if s.I.toNat ≤ 4095 then 4096 else s.I.toNat)))

/-- LD B, LD [I] and LD Vx, [I] leave I as it was, and storing V0 to Vx and then loading the same range, with the stored
memory and the same I, gives every one of those registers its old value back (R197). -/
def Obligations.StoreThenLoadRegisters : Prop :=
  ∀ (x : Nibble) (s u : State),
    (exec (.ldB x) s = .next u → u.I = s.I) ∧ (exec (.ldRegs x) s = .next u → u.I = s.I) ∧
    (exec (.stRegs x) s = .next u → u.I = s.I ∧
      (Memory.wf s.mem → ∀ v : State, v.mem = u.mem → v.I = u.I →
        ∃ t, exec (.ldRegs x) v = .next t ∧ ∀ z : Nibble, z.toNat ≤ x.toNat → t.reg z = s.reg z))

/-! ## Display -/

/-- CLS completes with all 2048 cells dark and changes nothing else (R211). -/
def Obligations.ClearScreenDarkensEveryCell : Prop :=
  decodesAs 0xF0FF 0x00E0 (fun _ => .cls) ∧
  (∀ y < 32, ∀ x < 64, fbCell State.reset.fb y x = false) ∧
  ∀ s : State, ∃ t, exec .cls s = .next t ∧ (∀ y < 32, ∀ x < 64, fbCell t.fb y x = false) ∧
    sameMemory s t ∧ t = { s with fb := t.fb }

/-- DRW with its rows in memory and its set bits inside the grid completes: a cell is inverted exactly when a set sprite bit
lands on it, VF is 1 exactly when such a cell was lit before and else 0, and nothing else changes. The coordinates come from
the old registers also when x or y is 0xF (R212, R214; decisions D8, D10, D11, log 10, log 11, log 12). -/
def Obligations.DrawInvertsTouchedCells : Prop :=
  ∀ (x y n : Nibble) (s : State), (∀ row < n.toNat, rowFits s x y row) →
    ∃ t, exec (.drw x y n) s = .next t ∧
      (∀ cy < 32, ∀ cx < 64, touches s x y n cy cx → fbCell t.fb cy cx = !fbCell s.fb cy cx) ∧
      (∀ cy < 32, ∀ cx < 64, ¬touches s x y n cy cx → fbCell t.fb cy cx = fbCell s.fb cy cx) ∧
      ((∃ cy cx, touches s x y n cy cx ∧ fbCell s.fb cy cx = true) → t.reg 0xF = 1) ∧
      ((∀ cy cx, touches s x y n cy cx → fbCell s.fb cy cx = false) → t.reg 0xF = 0) ∧
      keepsOthers 0xF s t ∧ sameMemory s t ∧ t = { s with V := t.V, fb := t.fb }

/-- DRW faults at the first condition it meets: with every earlier row fitting, a row above address 4095 is a MemFault, and
a row in memory faults at its leftmost set bit outside the grid (R213, R254; decisions D5, D8, D16, log 11, log 19). -/
def Obligations.DrawFaultsInOrder : Prop :=
  ∀ (x y n : Nibble) (s : State) (row : Nat), row < n.toNat → (∀ r < row, rowFits s x y r) →
    (4095 < s.I.toNat + row → exec (.drw x y n) s = .fault (.memFault (s.I.toNat + row))) ∧
    (s.I.toNat + row ≤ 4095 → ∀ col < 8, bitSet s row col →
      (∀ c < col, bitSet s row c → xPos s x + c ≤ 63 ∧ yPos s y + row ≤ 31) →
      63 < xPos s x + col ∨ 31 < yPos s y + row →
      exec (.drw x y n) s = .fault (.fbFault (xPos s x + col) (yPos s y + row)))

/-- Drawing the same sprite again at the same place gives the old framebuffer back, and the second draw reports a
collision exactly when the first lit a cell: when a set sprite bit lands on a cell that was dark before both (R214 (e), whose
last words R212 bears out in that case only, log 26). -/
def Obligations.DrawTwiceRestoresFramebuffer : Prop :=
  ∀ (x y n : Nibble) (s u : State), exec (.drw x y n) s = .next u →
    ∃ t, exec (.drw x y n) { u with V := s.V } = .next t ∧ t.fb = s.fb ∧
      ((∃ cy cx, touches s x y n cy cx ∧ fbCell s.fb cy cx = false) → t.reg 0xF = 1) ∧
      ((∀ cy cx, touches s x y n cy cx → fbCell s.fb cy cx = true) → t.reg 0xF = 0)

/-! ## Keypad and timers -/

/-- SKP and SKNP select the key by the whole byte Vx: up to 15 they complete and exactly one of them skips; above 15 they
fault (R230, R231, R237; the fault is the spec's decision D7, log 23). -/
def Obligations.KeySkipsTestTheKey : Prop :=
  ∀ (x : Nibble) (s : State),
    (∀ h : (s.reg x).toNat < 16,
      (∃ t, exec (.skp x) s = .next t ∧ onlyPc s t ∧
        t.pc.toNat = if s.keys[(s.reg x).toNat] = true then (s.pc.toNat + 2) % 65536 else s.pc.toNat) ∧
      (∃ t, exec (.sknp x) s = .next t ∧ onlyPc s t ∧
        t.pc.toNat = if s.keys[(s.reg x).toNat] = true then s.pc.toNat else (s.pc.toNat + 2) % 65536)) ∧
    (15 < (s.reg x).toNat →
      exec (.skp x) s = .fault (.keyIndexFault (s.reg x)) ∧ exec (.sknp x) s = .fault (.keyIndexFault (s.reg x)))

/-- LD Vx, K takes the least pressed key into Vx; with no key pressed it takes two from pc modulo 65536, back to its own
address; nothing else changes (R233; step 4, before the tick of the same Cycle; the decode numerals are log 1). -/
def Obligations.WaitForKeyTakesTheLeastKey : Prop :=
  decodesAs 0xF0FF 0xF00A (fun op => .ldVxK (opX op)) ∧
  ∀ (x : Nibble) (s : State),
    (∀ k, (hk : k < 16) → s.keys[k] = true → (∀ j, (hj : j < k) → s.keys[j] = false) →
      ∃ t, exec (.ldVxK x) s = .next t ∧ (t.reg x).toNat = k ∧ keepsOthers x s t ∧ onlyRegs s t) ∧
    ((∀ k, (hk : k < 16) → s.keys[k] = false) →
      ∃ t, exec (.ldVxK x) s = .next t ∧ t.pc.toNat = (s.pc.toNat + 65534) % 65536 ∧ onlyPc s t)

/-- LD Vx, DT, LD DT, Vx and LD ST, Vx complete with the one value moved and nothing else changed: step 4 of R232, R234 and
R235, before the tick of the same Cycle, which `Obligations.TimersTickOncePerCycle` states. The decode numerals are log 1. -/
def Obligations.TimerMoves : Prop :=
  decodesAs 0xF0FF 0xF007 (fun op => .ldVxDt (opX op)) ∧
  decodesAs 0xF0FF 0xF015 (fun op => .ldDtVx (opX op)) ∧
  decodesAs 0xF0FF 0xF018 (fun op => .ldStVx (opX op)) ∧
  ∀ (x : Nibble) (s : State),
    (∃ t, exec (.ldVxDt x) s = .next t ∧ t.reg x = s.DT ∧ keepsOthers x s t ∧ onlyRegs s t) ∧
    (∃ t, exec (.ldDtVx x) s = .next t ∧ t.DT = s.reg x ∧ sameMemory s t ∧ t = { s with DT := t.DT }) ∧
    (∃ t, exec (.ldStVx x) s = .next t ∧ t.ST = s.reg x ∧ sameMemory s t ∧ t = { s with ST := t.ST })

/-! ## The no-operation -/

/-- Executing a word that matches no row of R95 does nothing, and the Cycle that fetches one completes with pc two further
and one tick of each timer, all else unchanged (R124). That the 960 decode-ambiguous words are among the words that match no
row is the spec's decision D3, the model's reading of log 2, which calls it unsafe for a Cycle that executes one. -/
def Obligations.UnmatchedWordDoesNothing : Prop :=
  (∀ (w : Word) (s : State), exec (.nopUnmatched w) s = .next s) ∧
  ∀ (s : State) (op : Word), s.faulted = none → fetch16 s.mem s.pc.toNat = .ok op →
    opcodeTable.filter (rowMatches op) = [] →
    ∃ t, step s = .next t ∧ t.pc.toNat = (s.pc.toNat + 2) % 65536 ∧
      t.DT.toNat = s.DT.toNat - 1 ∧ t.ST.toNat = s.ST.toNat - 1 ∧ sameMemory s t ∧
      t = { s with pc := t.pc, DT := t.DT, ST := t.ST }

/-! ## Rules of the whole machine -/

/-- Every instruction completes or faults: none is refused. -/
def Obligations.EveryInstructionCompletesOrFaults : Prop :=
  ∀ (i : Instr) (s : State), (∃ t, exec i s = .next t) ∨ (∃ f, exec i s = .fault f)

/-- An execution faults in the cases of R250 and in no other (the spec's decisions D5 to D8, D15; log 8). -/
def Obligations.FaultsOnlyInTheListedCases : Prop :=
  ∀ (i : Instr) (s : State) (f : Fault), exec i s = .fault f →
    (∃ addr, i = .call addr ∧ s.sp.val = 16 ∧ f = .stackOverflow) ∨
    (i = .ret ∧ s.sp.val = 0 ∧ f = .stackUnderflow) ∨
    (∃ x, (i = .skp x ∨ i = .sknp x) ∧ 15 < (s.reg x).toNat ∧ f = .keyIndexFault (s.reg x)) ∨
    (∃ x, i = .ldB x ∧ 4095 < s.I.toNat + 2 ∧ f = .memFault (if s.I.toNat ≤ 4095 then 4096 else s.I.toNat)) ∨
    (∃ x, (i = .stRegs x ∨ i = .ldRegs x) ∧ 4095 < s.I.toNat + x.toNat ∧
      f = .memFault (if s.I.toNat ≤ 4095 then 4096 else s.I.toNat)) ∨
    (∃ x y n, i = .drw x y n ∧ ∃ row < n.toNat,
      (4095 < s.I.toNat + row ∧ f = .memFault (s.I.toNat + row)) ∨
      (s.I.toNat + row ≤ 4095 ∧ ∃ col < 8, bitSet s row col ∧
        (63 < xPos s x + col ∨ 31 < yPos s y + row) ∧ f = .fbFault (xPos s x + col) (yPos s y + row)))

/-- Each piece of state is changed only by the instructions the spec names as its writers: memory (R34), I (R25), the
framebuffer (R35), the call stack (R29), the timers (R31); no instruction changes the key flags (R37) or, when it
completes, the fault mark (R39), and only RND takes a free value (R38). -/
def Obligations.EachPieceHasItsWriters : Prop :=
  ∀ (i : Instr) (s t : State), exec i s = .next t →
    ((∀ x, i ≠ .ldB x ∧ i ≠ .stRegs x) → t.mem = s.mem ∧ sameMemory s t) ∧
    ((∀ x a, i ≠ .ldI a ∧ i ≠ .addI x ∧ i ≠ .ldF x) → t.I = s.I) ∧
    ((∀ x y n, i ≠ .cls ∧ i ≠ .drw x y n) → t.fb = s.fb) ∧
    ((∀ a, i ≠ .call a) → t.stack = s.stack) ∧
    ((∀ a, i ≠ .call a ∧ i ≠ .ret) → t.sp = s.sp) ∧
    ((∀ x, i ≠ .ldDtVx x) → t.DT = s.DT) ∧ ((∀ x, i ≠ .ldStVx x) → t.ST = s.ST) ∧
    ((∀ x kk, i ≠ .rnd x kk) → t.draws = s.draws) ∧ t.keys = s.keys ∧ t.faulted = s.faulted

/-- A general register that an instruction changes is its destination Vx, or VF for one of the six flag-writing
instructions, or one of V0 to Vx for LD Vx, [I] (R21, R23, R24). -/
def Obligations.RegistersChangeOnlyAsNamed : Prop :=
  ∀ (i : Instr) (s t : State) (z : Nibble), exec i s = .next t → t.reg z ≠ s.reg z →
    (∃ kk, i = .ldImm z kk ∨ i = .addImm z kk ∨ i = .rnd z kk) ∨
    (∃ y, i = .ldReg z y ∨ i = .orReg z y ∨ i = .andReg z y ∨ i = .xorReg z y) ∨
    (∃ x y, (z = x ∨ z = 0xF) ∧ (i = .addReg x y ∨ i = .sub x y ∨ i = .subn x y ∨ i = .shr x ∨ i = .shl x)) ∨
    (∃ x y n, z = 0xF ∧ i = .drw x y n) ∨
    i = .ldVxDt z ∨ i = .ldVxK z ∨ (∃ x, i = .ldRegs x ∧ z.toNat ≤ x.toNat)

/-- Only SKP, SKNP and LD Vx, K use the key flags and only RND the random byte: every other instruction does the same, on
everything else, whatever they are (R128). -/
def Obligations.InputsReachOnlyTheirInstructions : Prop :=
  ∀ (i : Instr) (s : State) (keys : Keypad) (draws : Nat),
    ((∀ x, i ≠ .skp x ∧ i ≠ .sknp x ∧ i ≠ .ldVxK x) →
      (∀ t, exec i s = .next t → exec i { s with keys := keys } = .next { t with keys := keys }) ∧
      (∀ f, exec i s = .fault f → exec i { s with keys := keys } = .fault f)) ∧
    ((∀ x kk, i ≠ .rnd x kk) →
      (∀ t, exec i s = .next t → exec i { s with draws := draws } = .next { t with draws := draws }) ∧
      (∀ f, exec i s = .fault f → exec i { s with draws := draws } = .fault f))
end

