-- ==== Sys2Proof/Laws/Decode.lean ====
section
/-! SUPPORT. The laws of fields, masks and the opcode table: a field of a word put together from its parts is that part, a
word is the put together of its fields, and each mask of R95 looks at whole fields. -/

namespace Sys2Proof

/-! ## Words as numbers -/

theorem toNat_append_eq (v w : Nat) (a : BitVec v) (b : BitVec w) : (a ++ b).toNat = a.toNat * 2 ^ w + b.toNat := by
  rw [BitVec.toNat_append, Nat.shiftLeft_eq, ← Nat.shiftLeft_eq, Nat.shiftLeft_add_eq_or_of_lt b.isLt]

theorem toNat_nibbles (f x y n : Nibble) :
    (f ++ x ++ y ++ n : Word).toNat = f.toNat * 4096 + x.toNat * 256 + y.toNat * 16 + n.toNat := by
  have h1 := toNat_append_eq 12 4 (f ++ x ++ y) n
  have h2 := toNat_append_eq 8 4 (f ++ x) y
  have h3 := toNat_append_eq 4 4 f x
  have e : (f ++ x ++ y ++ n : Word).toNat = (f ++ x ++ y).toNat * 2 ^ 4 + n.toNat := h1
  have e2 : (f ++ x ++ y).toNat = (f ++ x).toNat * 2 ^ 4 + y.toNat := h2
  omega

theorem toNat_nibbles_byte (f x : Nibble) (k : Byte) :
    (f ++ x ++ k : Word).toNat = f.toNat * 4096 + x.toNat * 256 + k.toNat := by
  have e : (f ++ x ++ k : Word).toNat = (f ++ x).toNat * 2 ^ 8 + k.toNat := toNat_append_eq 8 8 (f ++ x) k
  have e2 : (f ++ x).toNat = f.toNat * 2 ^ 4 + x.toNat := toNat_append_eq 4 4 f x
  rw [e, e2]
  ring

theorem toNat_nibble_addr (f : Nibble) (a : Addr12) : (f ++ a : Word).toNat = f.toNat * 4096 + a.toNat := by
  have e : (f ++ a : Word).toNat = f.toNat * 2 ^ 12 + a.toNat := toNat_append_eq 4 12 f a
  omega

theorem toNat_opFamily (op : Word) : (opFamily op).toNat = op.toNat / 4096 % 16 := by
  simp [opFamily, BitVec.extractLsb'_toNat, Nat.shiftRight_eq_div_pow]

theorem toNat_opX (op : Word) : (opX op).toNat = op.toNat / 256 % 16 := by
  simp [opX, BitVec.extractLsb'_toNat, Nat.shiftRight_eq_div_pow]

theorem toNat_opY (op : Word) : (opY op).toNat = op.toNat / 16 % 16 := by
  simp [opY, BitVec.extractLsb'_toNat, Nat.shiftRight_eq_div_pow]

theorem toNat_opN (op : Word) : (opN op).toNat = op.toNat % 16 := by
  simp [opN, BitVec.extractLsb'_toNat]

theorem toNat_opKk (op : Word) : (opKk op).toNat = op.toNat % 256 := by
  simp [opKk, BitVec.extractLsb'_toNat]

theorem toNat_opAddr (op : Word) : (opAddr op).toNat = op.toNat % 4096 := by
  simp [opAddr, BitVec.extractLsb'_toNat]

theorem toNat_highByte (op : Word) : (highByte op).toNat = op.toNat / 256 % 256 := by
  simp [highByte, BitVec.extractLsb'_toNat, Nat.shiftRight_eq_div_pow]

theorem toNat_lowByte (op : Word) : (lowByte op).toNat = op.toNat % 256 := by
  simp [lowByte, BitVec.extractLsb'_toNat]

theorem toNat_wordOfBytes (b0 b1 : Byte) : (wordOfBytes b0 b1).toNat = b0.toNat * 256 + b1.toNat := by
  have e : (wordOfBytes b0 b1).toNat = b0.toNat * 2 ^ 8 + b1.toNat := toNat_append_eq 8 8 b0 b1
  omega

/-! ## Fields of a word put together from its parts (R91) -/

section
variable (f x y n : Nibble) (k : Byte) (a : Addr12)

theorem opFamily_nibbles : opFamily (f ++ x ++ y ++ n : Word) = f := by
  apply BitVec.eq_of_toNat_eq; rw [toNat_opFamily, toNat_nibbles]; omega
theorem opX_nibbles : opX (f ++ x ++ y ++ n : Word) = x := by
  apply BitVec.eq_of_toNat_eq; rw [toNat_opX, toNat_nibbles]; omega
theorem opY_nibbles : opY (f ++ x ++ y ++ n : Word) = y := by
  apply BitVec.eq_of_toNat_eq; rw [toNat_opY, toNat_nibbles]; omega
theorem opN_nibbles : opN (f ++ x ++ y ++ n : Word) = n := by
  apply BitVec.eq_of_toNat_eq; rw [toNat_opN, toNat_nibbles]; omega
theorem opFamily_nibbles_byte : opFamily (f ++ x ++ k : Word) = f := by
  apply BitVec.eq_of_toNat_eq; rw [toNat_opFamily, toNat_nibbles_byte]; omega
theorem opX_nibbles_byte : opX (f ++ x ++ k : Word) = x := by
  apply BitVec.eq_of_toNat_eq; rw [toNat_opX, toNat_nibbles_byte]; omega
theorem opKk_nibbles_byte : opKk (f ++ x ++ k : Word) = k := by
  apply BitVec.eq_of_toNat_eq; rw [toNat_opKk, toNat_nibbles_byte]; omega
theorem opFamily_nibble_addr : opFamily (f ++ a : Word) = f := by
  apply BitVec.eq_of_toNat_eq; rw [toNat_opFamily, toNat_nibble_addr]; omega
theorem opAddr_nibble_addr : opAddr (f ++ a : Word) = a := by
  apply BitVec.eq_of_toNat_eq; rw [toNat_opAddr, toNat_nibble_addr]; omega

end

/-! ## A word is made of its fields -/

theorem word_eq_nibbles (op : Word) : (opFamily op ++ opX op ++ opY op ++ opN op : Word) = op := by
  apply BitVec.eq_of_toNat_eq
  rw [toNat_nibbles, toNat_opFamily, toNat_opX, toNat_opY, toNat_opN]; omega

theorem word_eq_nibbles_byte (op : Word) : (opFamily op ++ opX op ++ opKk op : Word) = op := by
  apply BitVec.eq_of_toNat_eq
  rw [toNat_nibbles_byte, toNat_opFamily, toNat_opX, toNat_opKk]; omega

theorem word_eq_nibble_addr (op : Word) : (opFamily op ++ opAddr op : Word) = op := by
  apply BitVec.eq_of_toNat_eq
  rw [toNat_nibble_addr, toNat_opFamily, toNat_opAddr]; omega

/-- The two bytes of a word, in memory order, give the word back (R61). -/
theorem wordOfBytes_bytes (op : Word) : wordOfBytes (highByte op) (lowByte op) = op := by
  apply BitVec.eq_of_toNat_eq
  rw [toNat_wordOfBytes, toNat_highByte, toNat_lowByte]; omega

theorem toNat_opKk_nibbles (op : Word) : (opKk op).toNat = (opY op).toNat * 16 + (opN op).toNat := by
  rw [toNat_opKk, toNat_opY, toNat_opN]; omega

/-! ## Masks (R95) -/

/-- The mask 0xF000 compares the family (R96). -/
theorem mask_family (op pattern : Word) :
    (op &&& 0xF000#16 = pattern) ↔ (pattern.toNat % 4096 = 0 ∧ (opFamily op).toNat = pattern.toNat / 4096) := by
  have h : op &&& 0xF000#16 = (opFamily op ++ 0#12 : Word) := by
    apply BitVec.eq_of_getLsbD_eq
    intro i hi
    have e : (opFamily op ++ 0#12 : Word).getLsbD i = if i < 12 then (0#12).getLsbD i else (opFamily op).getLsbD (i - 12) :=
      BitVec.getLsbD_append
    rw [e, BitVec.getLsbD_and, opFamily, BitVec.getLsbD_extractLsb']
    interval_cases i <;> simp
  rw [h]
  have ht := toNat_nibble_addr (opFamily op) 0#12
  constructor
  · rintro rfl; simp at ht; omega
  · rintro ⟨h1, h2⟩; apply BitVec.eq_of_toNat_eq; simp at ht; omega

/-- The mask 0xF00F compares the family and the low nibble (R97). -/
theorem mask_family_nibble (op pattern : Word) :
    (op &&& 0xF00F#16 = pattern) ↔
      (pattern.toNat / 16 % 256 = 0 ∧ (opFamily op).toNat = pattern.toNat / 4096 ∧ (opN op).toNat = pattern.toNat % 16) := by
  have h : op &&& 0xF00F#16 = (opFamily op ++ 0#8 ++ opN op : Word) := by
    apply BitVec.eq_of_getLsbD_eq
    intro i hi
    have e : (opFamily op ++ 0#8 ++ opN op : Word).getLsbD i =
        if i < 4 then (opN op).getLsbD i else (opFamily op ++ 0#8 : BitVec 12).getLsbD (i - 4) := BitVec.getLsbD_append
    have e2 : (opFamily op ++ 0#8 : BitVec 12).getLsbD (i - 4) =
        if i - 4 < 8 then (0#8).getLsbD (i - 4) else (opFamily op).getLsbD (i - 4 - 8) := BitVec.getLsbD_append
    rw [e, e2, BitVec.getLsbD_and, opFamily, opN, BitVec.getLsbD_extractLsb', BitVec.getLsbD_extractLsb']
    interval_cases i <;> simp
  rw [h]
  have ht : (opFamily op ++ 0#8 ++ opN op : Word).toNat = (opFamily op ++ 0#8 : BitVec 12).toNat * 2 ^ 4 + (opN op).toNat :=
    toNat_append_eq 12 4 _ _
  have ht2 : (opFamily op ++ 0#8 : BitVec 12).toNat = (opFamily op).toNat * 2 ^ 8 + (0#8).toNat := toNat_append_eq 4 8 _ _
  constructor
  · rintro rfl; simp at ht2; omega
  · rintro ⟨h1, h2, h3⟩; apply BitVec.eq_of_toNat_eq; simp at ht2; omega

/-- The mask 0xF0FF compares the family and the low byte (R98, R99). -/
theorem mask_family_byte (op pattern : Word) :
    (op &&& 0xF0FF#16 = pattern) ↔
      (pattern.toNat / 256 % 16 = 0 ∧ (opFamily op).toNat = pattern.toNat / 4096 ∧ (opKk op).toNat = pattern.toNat % 256) := by
  have h : op &&& 0xF0FF#16 = (opFamily op ++ 0#4 ++ opKk op : Word) := by
    apply BitVec.eq_of_getLsbD_eq
    intro i hi
    have e : (opFamily op ++ 0#4 ++ opKk op : Word).getLsbD i =
        if i < 8 then (opKk op).getLsbD i else (opFamily op ++ 0#4 : BitVec 8).getLsbD (i - 8) := BitVec.getLsbD_append
    have e2 : (opFamily op ++ 0#4 : BitVec 8).getLsbD (i - 8) =
        if i - 8 < 4 then (0#4).getLsbD (i - 8) else (opFamily op).getLsbD (i - 8 - 4) := BitVec.getLsbD_append
    rw [e, e2, BitVec.getLsbD_and, opFamily, opKk, BitVec.getLsbD_extractLsb', BitVec.getLsbD_extractLsb']
    interval_cases i <;> simp
  rw [h]
  have ht := toNat_nibbles_byte (opFamily op) 0#4 (opKk op)
  constructor
  · rintro rfl; simp at ht; omega
  · rintro ⟨h1, h2, h3⟩; apply BitVec.eq_of_toNat_eq; simp at ht; omega

end Sys2Proof
end

