-- ==== Sys2Proof/Laws/Memory.lean ====
section
/-! SUPPORT. The laws of memory: a byte written is the byte read, every other byte is left alone, and every operation keeps
the canonical form; and what storing and loading a run of bytes can do. -/

namespace Sys2Proof.Machine

theorem wf_nil : Memory.wf [] := by simp [Memory.wf]

theorem fontset_length : fontset.length = 80 := rfl

/-- Outside the font the reset content is zero (R42). -/
theorem unlisted_zero (a : Nat) (h : a < 0x050 ∨ 0x09F < a) : unlisted a = 0 := by
  unfold unlisted
  split
  · next hb =>
    have hb : 0x050 ≤ a := hb
    rw [List.getD_eq_default]
    rw [fontset_length]
    show 80 ≤ a - 0x050
    omega
  · rfl

theorem read_cons (addr a : Nat) (v : Byte) (m : Memory) :
    Memory.read (Memory.cons addr v m) a =
      if addr = a then (if v = unlisted addr then Memory.read m a else v) else Memory.read m a := by
  unfold Memory.cons
  split <;> simp_all [Memory.read]

/-- An address below every listed one reads as its reset content. -/
theorem read_below (m : Memory) (a : Nat) (h : ∀ c ∈ m, a < c.1) : Memory.read m a = unlisted a := by
  induction m with
  | nil => rfl
  | cons c m ih =>
    obtain ⟨k, v⟩ := c
    have hk : a < k := h (k, v) (by simp)
    rw [Memory.read, if_neg (by omega)]
    exact ih (fun c hc => h c (by simp [hc]))

/-- A write leaves every other address alone, in every memory. -/
theorem read_write_ne (m : Memory) (a b : Nat) (v : Byte) (h : b ≠ a) :
    Memory.read (Memory.write m a v) b = Memory.read m b := by
  induction m with
  | nil => simp [Memory.write, read_cons, Ne.symm h]
  | cons c m ih =>
    obtain ⟨k, w⟩ := c
    simp only [Memory.write]
    split
    · simp only [Memory.read, ih]
    · split
      · next hk => subst hk; simp [read_cons, Memory.read, Ne.symm h]
      · simp [read_cons, Ne.symm h]

/-- In a memory in canonical form the byte written is the byte read. -/
theorem read_write (m : Memory) (hm : Memory.wf m) (a : Nat) (v : Byte) :
    Memory.read (Memory.write m a v) a = v := by
  induction m with
  | nil => by_cases hv : v = unlisted a <;> simp [Memory.write, read_cons, Memory.read, hv]
  | cons c m ih =>
    obtain ⟨k, w⟩ := c
    obtain ⟨hp, hc⟩ := hm
    rw [List.pairwise_cons] at hp
    have hwf : Memory.wf m := ⟨hp.2, fun c h => hc c (by simp [h])⟩
    simp only [Memory.write]
    split
    · next hk => rw [Memory.read, if_neg (by omega)]; exact ih hwf
    · split
      · next hk =>
        subst hk
        have := read_below m k (fun c h => hp.1 c h)
        by_cases hv : v = unlisted k <;> simp [read_cons, hv, this]
      · next h1 h2 =>
        have hlt : a < k := by omega
        have := read_below ((k, w) :: m) a (by
          intro c h
          rcases List.mem_cons.mp h with rfl | h
          · exact hlt
          · exact Nat.lt_trans hlt (hp.1 c h))
        by_cases hv : v = unlisted a <;> simp [read_cons, hv, this]

theorem read_write_eq (m : Memory) (hm : Memory.wf m) (a b : Nat) (v : Byte) :
    Memory.read (Memory.write m a v) b = if b = a then v else Memory.read m b := by
  split
  · next h => subst h; exact read_write m hm b v
  · next h => exact read_write_ne m a b v h

/-- A cell put in front of a canonical memory that lies above it. -/
theorem wf_cons (m : Memory) (hm : Memory.wf m) (a : Nat) (v : Byte) (ha : a < memSize) (hlt : ∀ c ∈ m, a < c.1) :
    Memory.wf (Memory.cons a v m) := by
  unfold Memory.cons
  split
  · exact hm
  · next hv =>
    refine ⟨List.pairwise_cons.mpr ⟨fun c h => hlt c h, hm.1⟩, ?_⟩
    intro c h
    rcases List.mem_cons.mp h with rfl | h
    · exact ⟨ha, hv⟩
    · exact hm.2 c h

theorem mem_cons_addr (m : Memory) (a : Nat) (v : Byte) (c : Host.Cell) (h : c ∈ Memory.cons a v m) :
    c.1 = a ∨ c ∈ m := by
  unfold Memory.cons at h
  split at h
  · exact .inr h
  · rcases List.mem_cons.mp h with rfl | h
    · exact .inl rfl
    · exact .inr h

theorem mem_write_addr (m : Memory) (a : Nat) (v : Byte) (c : Host.Cell) (h : c ∈ Memory.write m a v) :
    c.1 = a ∨ c ∈ m := by
  induction m with
  | nil => exact mem_cons_addr [] a v c h
  | cons d m ih =>
    obtain ⟨k, w⟩ := d
    simp only [Memory.write] at h
    split at h
    · rcases List.mem_cons.mp h with rfl | h
      · exact .inr (by simp)
      · rcases ih h with h | h
        · exact .inl h
        · exact .inr (by simp [h])
    · split at h
      · rcases mem_cons_addr m a v c h with h | h
        · exact .inl h
        · exact .inr (by simp [h])
      · exact mem_cons_addr _ a v c h

/-- A write inside memory keeps the canonical form. -/
theorem wf_write (m : Memory) (hm : Memory.wf m) (a : Nat) (v : Byte) (ha : a < memSize) :
    Memory.wf (Memory.write m a v) := by
  induction m with
  | nil => exact wf_cons [] wf_nil a v ha (by simp)
  | cons c m ih =>
    obtain ⟨k, w⟩ := c
    have hp := List.pairwise_cons.mp hm.1
    have hwf : Memory.wf m := ⟨hp.2, fun c h => hm.2 c (by simp [h])⟩
    simp only [Memory.write]
    split
    · next hk =>
      have ih := ih hwf
      refine ⟨List.pairwise_cons.mpr ⟨?_, ih.1⟩, ?_⟩
      · intro c h
        rcases mem_write_addr m a v c h with h | h
        · simpa [h] using hk
        · exact hp.1 c h
      · intro c h
        rcases List.mem_cons.mp h with rfl | h
        · exact hm.2 (k, w) (by simp)
        · exact ih.2 c h
    · split
      · next hk => subst hk; exact wf_cons m hwf k v ha hp.1
      · refine wf_cons _ hm a v ha ?_
        intro c h
        rcases List.mem_cons.mp h with rfl | h
        · simp; omega
        · have := hp.1 c h; simp at this; omega

theorem wf_foldr_cons (content : Nat → Byte) (base n : Nat) (h : base + n ≤ memSize) :
    Memory.wf ((List.range' base n).foldr (fun a rest => Memory.cons a (content a) rest) []) ∧
      ∀ c ∈ (List.range' base n).foldr (fun a rest => Memory.cons a (content a) rest) [], base ≤ c.1 := by
  induction n generalizing base with
  | zero => exact ⟨wf_nil, by simp⟩
  | succ n ih =>
    rw [List.range'_succ, List.foldr_cons]
    obtain ⟨h1, h2⟩ := ih (base + 1) (by omega)
    refine ⟨wf_cons _ h1 base _ (by omega) (fun c hc => by have := h2 c hc; omega), ?_⟩
    intro c hc
    rcases mem_cons_addr _ _ _ c hc with h | h
    · omega
    · have := h2 c h; omega

/-- A memory written out from its contents is in canonical form. -/
theorem wf_ofContent (content : Nat → Byte) : Memory.wf (Memory.ofContent content) := by
  unfold Memory.ofContent
  rw [List.range_eq_range']
  exact (wf_foldr_cons content 0 memSize (by simp)).1

theorem takeFault_mem (f : Fault) (s : State) :
    (takeFault f s).mem = Memory.ofContent (Config.unknownMem s.draws) := by
  simp only [takeFault, State.scrambled]

/-- The unknown memory after a fault is in canonical form (R251). -/
theorem wf_takeFault (f : Fault) (s : State) : Memory.wf (takeFault f s).mem := by
  generalize h : (takeFault f s).mem = m
  rw [takeFault_mem] at h
  subst h
  exact wf_ofContent _

/-! ## The two primitives -/

theorem memRead_inside (m : Memory) (a : Nat) (h : a < memSize) : memRead m a = .ok (Memory.read m a) := by
  simp [memRead, h]

theorem memRead_outside (m : Memory) (a : Nat) (h : memSize ≤ a) : memRead m a = .error (.memFault a) := by
  simp [memRead, Nat.not_lt.mpr h]

theorem memWrite_inside (m : Memory) (a : Nat) (v : Byte) (h : a < memSize) :
    memWrite m a v = .ok (Memory.write m a v) := by
  simp [memWrite, h]

theorem memWrite_outside (m : Memory) (a : Nat) (v : Byte) (h : memSize ≤ a) :
    memWrite m a v = .error (.memFault a) := by
  simp [memWrite, Nat.not_lt.mpr h]

/-- The fetch of an address below 4095. -/
theorem fetch16_inside (m : Memory) (a : Nat) (h : a + 1 < memSize) :
    fetch16 m a = .ok (wordOfBytes (Memory.read m a) (Memory.read m (a + 1))) := by
  simp [fetch16, memRead, h, Nat.lt_of_succ_lt h]

/-- The fetch of the last byte of memory or beyond it faults at the first address outside (R62). -/
theorem fetch16_outside (m : Memory) (a : Nat) (h : memSize ≤ a + 1) :
    fetch16 m a = .error (.memFault (max a memSize)) := by
  unfold fetch16
  by_cases ha : a < memSize
  · have : a + 1 = memSize := by omega
    rw [memRead_inside m a ha, memRead_outside m (a + 1) (by omega)]
    simp [this, Nat.max_eq_right (Nat.le_of_lt ha)]
  · rw [memRead_outside m a (by omega)]
    simp [Nat.max_eq_left (Nat.not_lt.mp ha)]

/-! ## Runs of bytes -/

/-- Storing a run of bytes succeeds exactly when it fits. -/
theorem storeBytes_fits (base : Nat) (vs : List Byte) (m : Memory) (h : base + vs.length ≤ memSize) :
    ∃ m', storeBytes base vs m = .ok m' := by
  induction vs generalizing base m with
  | nil => exact ⟨m, rfl⟩
  | cons v vs ih =>
    simp only [List.length_cons] at h
    rw [storeBytes, memWrite_inside m base v (by omega)]
    exact ih (base + 1) _ (by omega)

/-- Everything storing a run of bytes can do when it succeeds. -/
theorem storeBytes_spec (base : Nat) (vs : List Byte) (m m' : Memory) (h : storeBytes base vs m = .ok m') :
    (vs ≠ [] → base + vs.length ≤ memSize) ∧
    (∀ a, a < base ∨ base + vs.length ≤ a → Memory.read m' a = Memory.read m a) ∧
    (Memory.wf m → Memory.wf m' ∧ ∀ i, (hi : i < vs.length) → Memory.read m' (base + i) = vs[i]) := by
  induction vs generalizing base m with
  | nil => cases h; simp
  | cons v vs ih =>
    by_cases hb : base < memSize
    · rw [storeBytes, memWrite_inside m base v hb] at h
      obtain ⟨h1, h2, h3⟩ := ih (base + 1) (Memory.write m base v) h
      simp only [List.length_cons]
      refine ⟨fun _ => ?_, fun a ha => ?_, fun hm => ?_⟩
      · by_cases hv : vs = []
        · subst hv; simp; omega
        · have := h1 hv; omega
      · rw [h2 a (by omega), read_write_ne m base a v (by omega)]
      · obtain ⟨h4, h5⟩ := h3 (wf_write m hm base v hb)
        refine ⟨h4, fun i hi => ?_⟩
        cases i with
        | zero => simpa [h2 base (by omega)] using read_write m hm base v
        | succ i =>
          have := h5 i (by omega)
          rw [show base + (i + 1) = base + 1 + i by omega]
          simpa using this
    · rw [storeBytes, memWrite_outside m base v (by omega)] at h
      cases h

/-- A run of bytes that does not fit faults at the first address above memory. -/
theorem storeBytes_overflows (base : Nat) (vs : List Byte) (m : Memory) (hv : vs ≠ [])
    (h : memSize < base + vs.length) : storeBytes base vs m = .error (.memFault (max base memSize)) := by
  induction vs generalizing base m with
  | nil => exact absurd rfl hv
  | cons v vs ih =>
    simp only [List.length_cons] at h
    by_cases hb : base < memSize
    · rw [storeBytes, memWrite_inside m base v hb]
      have hne : vs ≠ [] := by rintro rfl; simp at h; omega
      have := ih (base + 1) (Memory.write m base v) hne (by omega)
      rw [show max (base + 1) memSize = max base memSize by omega] at this
      exact this
    · rw [storeBytes, memWrite_outside m base v (by omega), Nat.max_eq_left (by omega)]

/-- Loading a run of bytes that lies in memory. -/
theorem loadBytes_fits (m : Memory) (base n : Nat) (h : base + n ≤ memSize) :
    loadBytes m base n = .ok ((List.range n).map (fun i => Memory.read m (base + i))) := by
  induction n generalizing base with
  | zero => rfl
  | succ n ih =>
    rw [loadBytes, memRead_inside m base (by omega)]
    simp only [ih (base + 1) (by omega), List.range_succ_eq_map, List.map_cons, List.map_map, Nat.add_zero]
    congr 2
    exact List.map_congr_left fun i _ => by simp [Nat.add_assoc, Nat.add_comm 1 i]

/-- A run of bytes that does not lie in memory faults at the first address above it. -/
theorem loadBytes_overflows (m : Memory) (base n : Nat) (hn : n ≠ 0) (h : memSize < base + n) :
    loadBytes m base n = .error (.memFault (max base memSize)) := by
  induction n generalizing base with
  | zero => exact absurd rfl hn
  | succ n ih =>
    by_cases hb : base < memSize
    · rw [loadBytes, memRead_inside m base hb]
      have := ih (base + 1) (by omega) (by omega)
      rw [show max (base + 1) memSize = max base memSize by omega] at this
      simp [this]
    · rw [loadBytes, memRead_outside m base (by omega), Nat.max_eq_left (by omega)]

end Sys2Proof.Machine
end

