-- ==== Sys2Proof/Laws/Display.lean ====
section
/-! SUPPORT. What drawing can do under the machine's edge policy: a sprite row, and a sprite, flip exactly the cells under
their set bits and report whether one of them was lit. -/

namespace Sys2Proof.Machine

/-- The cells of a framebuffer after one was flipped. -/
theorem fbCell_fbFlip (fb : Framebuffer) (y x y' x' : Nat) :
    fbCell (fbFlip fb y x) y' x' =
      if y' = y ∧ x' = x ∧ y < 32 ∧ x < 64 then !fbCell fb y x else fbCell fb y' x' := by
  by_cases h : y < 32 ∧ x < 64
  · have hflip : fbFlip fb y x = fb.set y ((fb[y]'h.1).set x (!(fb[y]'h.1)[x]'h.2) h.2) h.1 := dif_pos h
    by_cases h' : y' < 32 ∧ x' < 64
    · have hget : ∀ g : Framebuffer, fbCell g y' x' = (g[y']'h'.1)[x']'h'.2 := fun g => dif_pos h'
      have hold : fbCell fb y x = (fb[y]'h.1)[x]'h.2 := dif_pos h
      rw [hget, hget, hold, hflip]
      by_cases hy : y' = y
      · subst hy
        by_cases hx : x' = x
        · subst hx; simp [h]
        · simp [hx, Vector.getElem_set_ne, Ne.symm hx]
      · simp [hy, Vector.getElem_set_ne, Ne.symm hy]
    · have hout : ∀ g : Framebuffer, fbCell g y' x' = false := fun g => dif_neg h'
      rw [hout, hout, if_neg]
      rintro ⟨rfl, rfl, hh⟩; exact h' hh
  · rw [show fbFlip fb y x = fb from dif_neg h, if_neg]
    rintro ⟨-, -, hh⟩; exact h hh

/-- Two framebuffers with the same cells are the same. -/
theorem framebuffer_ext (a b : Framebuffer) (h : ∀ y x, y < 32 → x < 64 → fbCell a y x = fbCell b y x) : a = b := by
  ext1 y hy
  ext1 x hx
  simpa [fbCell, hy, hx] using h y x hy hx

/-- A set sprite bit that lands inside the grid. -/
theorem drawPixel_inside (px py : Nat) (d : Drawing) (h : px ≤ 63 ∧ py ≤ 31) :
    drawPixel .fault px py d = .ok ⟨fbFlip d.fb py px, d.hit || fbCell d.fb py px⟩ := by
  simp [drawPixel, fbTarget, Nat.not_lt.mpr h.1, Nat.not_lt.mpr h.2]

theorem drawPixel_outside (px py : Nat) (d : Drawing) (h : 63 < px ∨ 31 < py) :
    drawPixel .fault px py d = .error (.fbFault px py) := by
  simp [drawPixel, fbTarget, h]

/-- Everything a sprite row can do when each of its set bits lands inside the grid: it flips the cells under its set bits
and reports whether one of them was lit. -/
theorem drawRow_inside (b : Byte) (xPos py : Nat) (cols : List Nat) (hn : cols.Nodup) (d : Drawing)
    (hin : ∀ col ∈ cols, spriteBit b col = true → xPos + col ≤ 63 ∧ py ≤ 31) :
    ∃ d', drawRow .fault b xPos py cols d = .ok d' ∧
      (∀ y x, fbCell d'.fb y x = true ↔
        (fbCell d.fb y x = true ↔ ¬(y = py ∧ ∃ col ∈ cols, spriteBit b col = true ∧ x = xPos + col))) ∧
      (d'.hit = true ↔ d.hit = true ∨ ∃ col ∈ cols, spriteBit b col = true ∧ fbCell d.fb py (xPos + col) = true) := by
  induction cols generalizing d with
  | nil => exact ⟨d, rfl, by simp, by simp⟩
  | cons col cols ih =>
    obtain ⟨hnot, hn⟩ := List.nodup_cons.mp hn
    have hin' : ∀ c ∈ cols, spriteBit b c = true → xPos + c ≤ 63 ∧ py ≤ 31 :=
      fun c hc => hin c (List.mem_cons_of_mem _ hc)
    by_cases hb : spriteBit b col = true
    · have hc := hin col (by simp) hb
      obtain ⟨d', h1, h2, h3⟩ := ih hn ⟨fbFlip d.fb py (xPos + col), d.hit || fbCell d.fb py (xPos + col)⟩ hin'
      refine ⟨d', ?_, ?_, ?_⟩
      · rw [drawRow, if_pos hb, drawPixel_inside _ _ _ hc]; exact h1
      · intro y x
        rw [h2, fbCell_fbFlip]
        by_cases hyx : y = py ∧ x = xPos + col
        · obtain ⟨rfl, rfl⟩ := hyx
          have hno : ¬∃ c ∈ cols, spriteBit b c = true ∧ xPos + col = xPos + c := by
            rintro ⟨c, hc, -, he⟩
            exact hnot (by rwa [show col = c by omega])
          have hyes : ∃ c ∈ col :: cols, spriteBit b c = true ∧ xPos + col = xPos + c := ⟨col, by simp, hb, rfl⟩
          rw [if_pos ⟨rfl, rfl, by omega, by omega⟩]
          simp only [hno, hyes, and_false, and_self, not_true, not_false_iff, iff_true, iff_false]
          cases fbCell d.fb y (xPos + col) <;> simp
        · rw [if_neg (fun h => hyx ⟨h.1, h.2.1⟩)]
          have : (y = py ∧ ∃ c ∈ col :: cols, spriteBit b c = true ∧ x = xPos + c) ↔
              (y = py ∧ ∃ c ∈ cols, spriteBit b c = true ∧ x = xPos + c) := by
            refine and_congr_right fun hy => ?_
            simp only [List.mem_cons, exists_eq_or_imp, hb, true_and]
            exact or_iff_right fun hx => hyx ⟨hy, hx⟩
          rw [this]
      · rw [h3]
        simp only [Bool.or_eq_true, List.mem_cons, exists_eq_or_imp, hb, true_and, or_assoc]
        refine or_congr Iff.rfl (or_congr Iff.rfl (exists_congr fun c => and_congr_right fun hcm => and_congr_right fun _ => ?_))
        rw [fbCell_fbFlip, if_neg]
        rintro ⟨-, he, -⟩
        exact hnot (by rwa [← show c = col by omega])
    · obtain ⟨d', h1, h2, h3⟩ := ih hn d hin'
      refine ⟨d', ?_, ?_, ?_⟩
      · rw [drawRow, if_neg hb]; exact h1
      · intro y x; rw [h2]; simp [hb]
      · rw [h3]; simp [hb]

/-- A sprite row faults at the first set bit, in the order of its columns, that lands outside the grid (R213). -/
theorem drawRow_outside (b : Byte) (xPos py : Nat) (cols : List Nat) (d : Drawing) (pre post : List Nat) (col : Nat)
    (hc : cols = pre ++ col :: post)
    (hpre : ∀ c ∈ pre, spriteBit b c = true → xPos + c ≤ 63 ∧ py ≤ 31)
    (hb : spriteBit b col = true) (hout : 63 < xPos + col ∨ 31 < py) :
    drawRow .fault b xPos py cols d = .error (.fbFault (xPos + col) py) := by
  subst hc
  induction pre generalizing d with
  | nil => rw [List.nil_append, drawRow, if_pos hb, drawPixel_outside _ _ _ hout]
  | cons c pre ih =>
    have hpre' : ∀ c ∈ pre, spriteBit b c = true → xPos + c ≤ 63 ∧ py ≤ 31 :=
      fun c hc => hpre c (List.mem_cons_of_mem _ hc)
    rw [List.cons_append, drawRow]
    split
    · next hcb => rw [drawPixel_inside _ _ _ (hpre c (by simp) hcb)]; exact ih _ hpre'
    · exact ih _ hpre'

/-- The sprite bit at row `row`, column `col` is set: the byte at `base + row` has it. -/
def spriteSet (m : Memory) (base row col : Nat) : Prop := spriteBit (Memory.read m (base + row)) col = true

/-- Everything drawing rows can do when each row is in memory and each set bit lands inside the grid. -/
theorem drawRows_inside (m : Memory) (base xPos yPos : Nat) (rows : List Nat) (hn : rows.Nodup) (d : Drawing)
    (hmem : ∀ row ∈ rows, base + row < memSize)
    (hin : ∀ row ∈ rows, ∀ col < 8, spriteSet m base row col → xPos + col ≤ 63 ∧ yPos + row ≤ 31) :
    ∃ d', drawRows .fault m base xPos yPos rows d = .ok d' ∧
      (∀ y x, fbCell d'.fb y x = true ↔
        (fbCell d.fb y x = true ↔ ¬∃ row ∈ rows, ∃ col < 8, spriteSet m base row col ∧ y = yPos + row ∧ x = xPos + col)) ∧
      (d'.hit = true ↔ d.hit = true ∨
        ∃ row ∈ rows, ∃ col < 8, spriteSet m base row col ∧ fbCell d.fb (yPos + row) (xPos + col) = true) := by
  induction rows generalizing d with
  | nil => exact ⟨d, rfl, by simp, by simp⟩
  | cons row rows ih =>
    obtain ⟨hnot, hn⟩ := List.nodup_cons.mp hn
    obtain ⟨d1, e1, c1, h1⟩ := drawRow_inside (Memory.read m (base + row)) xPos (yPos + row) (List.range 8)
      List.nodup_range d (fun col hc hb => hin row (by simp) col (List.mem_range.mp hc) hb)
    obtain ⟨d', e2, c2, h2⟩ := ih hn d1 (fun r hr => hmem r (List.mem_cons_of_mem _ hr))
      (fun r hr => hin r (List.mem_cons_of_mem _ hr))
    refine ⟨d', ?_, ?_, ?_⟩
    · rw [drawRows, memRead_inside _ _ (hmem row (by simp))]
      simp only [e1]; exact e2
    · intro y x
      rw [c2, c1]
      by_cases hy : y = yPos + row
      · have hno : ¬∃ r ∈ rows, ∃ col < 8, spriteSet m base r col ∧ y = yPos + r ∧ x = xPos + col := by
          rintro ⟨r, hr, col, -, -, he, -⟩
          exact hnot (by rwa [show row = r by omega])
        have hhere : (∃ r ∈ row :: rows, ∃ col < 8, spriteSet m base r col ∧ y = yPos + r ∧ x = xPos + col) ↔
            (y = yPos + row ∧ ∃ col ∈ List.range 8, spriteBit (Memory.read m (base + row)) col = true ∧ x = xPos + col) := by
          simp only [List.mem_cons, exists_eq_or_imp]
          rw [or_iff_left hno]
          simp only [List.mem_range, spriteSet, hy, true_and]
        rw [hhere]
        simp only [hno, not_false_iff, iff_true]
      · have hhere : (∃ r ∈ row :: rows, ∃ col < 8, spriteSet m base r col ∧ y = yPos + r ∧ x = xPos + col) ↔
            (∃ r ∈ rows, ∃ col < 8, spriteSet m base r col ∧ y = yPos + r ∧ x = xPos + col) := by
          simp only [List.mem_cons, exists_eq_or_imp]
          refine or_iff_right ?_
          rintro ⟨col, -, -, he, -⟩; exact hy he
        rw [hhere]
        simp only [hy, false_and, not_false_iff, iff_true]
    · rw [h2, h1]
      simp only [List.mem_range, List.mem_cons, exists_eq_or_imp, or_assoc, spriteSet]
      refine or_congr Iff.rfl (or_congr Iff.rfl ?_)
      refine exists_congr fun r => and_congr_right fun hr => ?_
      have hne : yPos + r ≠ yPos + row := fun he => hnot (by rwa [show row = r by omega])
      refine exists_congr fun col => and_congr_right fun _ => and_congr_right fun _ => ?_
      rw [c1]
      simp only [hne, false_and, not_false_iff, iff_true]

/-- Drawing rows faults at the first row, in order, that is not in memory, after every earlier row was drawn (R254). -/
theorem drawRows_memFault (m : Memory) (base xPos yPos : Nat) (pre post : List Nat) (row : Nat) (d d' : Drawing)
    (hpre : drawRows .fault m base xPos yPos pre d = .ok d') (hout : memSize ≤ base + row) :
    drawRows .fault m base xPos yPos (pre ++ row :: post) d = .error (.memFault (base + row)) := by
  induction pre generalizing d with
  | nil => rw [List.nil_append, drawRows, memRead_outside _ _ hout]
  | cons r pre ih =>
    rw [drawRows] at hpre
    rw [List.cons_append, drawRows]
    split at hpre
    · cases hpre
    · split at hpre
      · cases hpre
      · exact ih _ hpre

/-- Drawing rows faults with the fault of the first row, in order, that faults (R254). -/
theorem drawRows_rowFault (m : Memory) (base xPos yPos : Nat) (pre post : List Nat) (row : Nat) (d d' : Drawing) (f : Fault)
    (hpre : drawRows .fault m base xPos yPos pre d = .ok d') (hin : base + row < memSize)
    (hrow : drawRow .fault (Memory.read m (base + row)) xPos (yPos + row) (List.range 8) d' = .error f) :
    drawRows .fault m base xPos yPos (pre ++ row :: post) d = .error f := by
  induction pre generalizing d with
  | nil =>
    cases hpre
    rw [List.nil_append, drawRows, memRead_inside _ _ hin]
    simp [hrow]
  | cons r pre ih =>
    rw [drawRows] at hpre
    rw [List.cons_append, drawRows]
    split at hpre
    · cases hpre
    · split at hpre
      · cases hpre
      · exact ih _ hpre

end Sys2Proof.Machine
end

