-- ==== Sys2Proof/Laws/State.lean ====
section
/-! SUPPORT. One lemma per field per update of State: what each named update leaves in each field. -/

namespace Sys2Proof.Machine

variable (s : State)

/-! ### State.setI -/

@[simp] theorem setI_V (v : Word) : (State.setI v s).V = s.V := rfl
@[simp] theorem setI_I (v : Word) : (State.setI v s).I = v := rfl
@[simp] theorem setI_pc (v : Word) : (State.setI v s).pc = s.pc := rfl
@[simp] theorem setI_sp (v : Word) : (State.setI v s).sp = s.sp := rfl
@[simp] theorem setI_stack (v : Word) : (State.setI v s).stack = s.stack := rfl
@[simp] theorem setI_DT (v : Word) : (State.setI v s).DT = s.DT := rfl
@[simp] theorem setI_ST (v : Word) : (State.setI v s).ST = s.ST := rfl
@[simp] theorem setI_mem (v : Word) : (State.setI v s).mem = s.mem := rfl
@[simp] theorem setI_fb (v : Word) : (State.setI v s).fb = s.fb := rfl
@[simp] theorem setI_faulted (v : Word) : (State.setI v s).faulted = s.faulted := rfl
@[simp] theorem setI_keys (v : Word) : (State.setI v s).keys = s.keys := rfl
@[simp] theorem setI_draws (v : Word) : (State.setI v s).draws = s.draws := rfl

/-! ### State.setPc -/

@[simp] theorem setPc_V (target : Word) : (State.setPc target s).V = s.V := rfl
@[simp] theorem setPc_I (target : Word) : (State.setPc target s).I = s.I := rfl
@[simp] theorem setPc_pc (target : Word) : (State.setPc target s).pc = target := rfl
@[simp] theorem setPc_sp (target : Word) : (State.setPc target s).sp = s.sp := rfl
@[simp] theorem setPc_stack (target : Word) : (State.setPc target s).stack = s.stack := rfl
@[simp] theorem setPc_DT (target : Word) : (State.setPc target s).DT = s.DT := rfl
@[simp] theorem setPc_ST (target : Word) : (State.setPc target s).ST = s.ST := rfl
@[simp] theorem setPc_mem (target : Word) : (State.setPc target s).mem = s.mem := rfl
@[simp] theorem setPc_fb (target : Word) : (State.setPc target s).fb = s.fb := rfl
@[simp] theorem setPc_faulted (target : Word) : (State.setPc target s).faulted = s.faulted := rfl
@[simp] theorem setPc_keys (target : Word) : (State.setPc target s).keys = s.keys := rfl
@[simp] theorem setPc_draws (target : Word) : (State.setPc target s).draws = s.draws := rfl

/-! ### State.setDt -/

@[simp] theorem setDt_V (v : Byte) : (State.setDt v s).V = s.V := rfl
@[simp] theorem setDt_I (v : Byte) : (State.setDt v s).I = s.I := rfl
@[simp] theorem setDt_pc (v : Byte) : (State.setDt v s).pc = s.pc := rfl
@[simp] theorem setDt_sp (v : Byte) : (State.setDt v s).sp = s.sp := rfl
@[simp] theorem setDt_stack (v : Byte) : (State.setDt v s).stack = s.stack := rfl
@[simp] theorem setDt_DT (v : Byte) : (State.setDt v s).DT = v := rfl
@[simp] theorem setDt_ST (v : Byte) : (State.setDt v s).ST = s.ST := rfl
@[simp] theorem setDt_mem (v : Byte) : (State.setDt v s).mem = s.mem := rfl
@[simp] theorem setDt_fb (v : Byte) : (State.setDt v s).fb = s.fb := rfl
@[simp] theorem setDt_faulted (v : Byte) : (State.setDt v s).faulted = s.faulted := rfl
@[simp] theorem setDt_keys (v : Byte) : (State.setDt v s).keys = s.keys := rfl
@[simp] theorem setDt_draws (v : Byte) : (State.setDt v s).draws = s.draws := rfl

/-! ### State.setSt -/

@[simp] theorem setSt_V (v : Byte) : (State.setSt v s).V = s.V := rfl
@[simp] theorem setSt_I (v : Byte) : (State.setSt v s).I = s.I := rfl
@[simp] theorem setSt_pc (v : Byte) : (State.setSt v s).pc = s.pc := rfl
@[simp] theorem setSt_sp (v : Byte) : (State.setSt v s).sp = s.sp := rfl
@[simp] theorem setSt_stack (v : Byte) : (State.setSt v s).stack = s.stack := rfl
@[simp] theorem setSt_DT (v : Byte) : (State.setSt v s).DT = s.DT := rfl
@[simp] theorem setSt_ST (v : Byte) : (State.setSt v s).ST = v := rfl
@[simp] theorem setSt_mem (v : Byte) : (State.setSt v s).mem = s.mem := rfl
@[simp] theorem setSt_fb (v : Byte) : (State.setSt v s).fb = s.fb := rfl
@[simp] theorem setSt_faulted (v : Byte) : (State.setSt v s).faulted = s.faulted := rfl
@[simp] theorem setSt_keys (v : Byte) : (State.setSt v s).keys = s.keys := rfl
@[simp] theorem setSt_draws (v : Byte) : (State.setSt v s).draws = s.draws := rfl

/-! ### State.setMem -/

@[simp] theorem setMem_V (m : Memory) : (State.setMem m s).V = s.V := rfl
@[simp] theorem setMem_I (m : Memory) : (State.setMem m s).I = s.I := rfl
@[simp] theorem setMem_pc (m : Memory) : (State.setMem m s).pc = s.pc := rfl
@[simp] theorem setMem_sp (m : Memory) : (State.setMem m s).sp = s.sp := rfl
@[simp] theorem setMem_stack (m : Memory) : (State.setMem m s).stack = s.stack := rfl
@[simp] theorem setMem_DT (m : Memory) : (State.setMem m s).DT = s.DT := rfl
@[simp] theorem setMem_ST (m : Memory) : (State.setMem m s).ST = s.ST := rfl
@[simp] theorem setMem_mem (m : Memory) : (State.setMem m s).mem = m := rfl
@[simp] theorem setMem_fb (m : Memory) : (State.setMem m s).fb = s.fb := rfl
@[simp] theorem setMem_faulted (m : Memory) : (State.setMem m s).faulted = s.faulted := rfl
@[simp] theorem setMem_keys (m : Memory) : (State.setMem m s).keys = s.keys := rfl
@[simp] theorem setMem_draws (m : Memory) : (State.setMem m s).draws = s.draws := rfl

/-! ### State.setFb -/

@[simp] theorem setFb_V (fb : Framebuffer) : (State.setFb fb s).V = s.V := rfl
@[simp] theorem setFb_I (fb : Framebuffer) : (State.setFb fb s).I = s.I := rfl
@[simp] theorem setFb_pc (fb : Framebuffer) : (State.setFb fb s).pc = s.pc := rfl
@[simp] theorem setFb_sp (fb : Framebuffer) : (State.setFb fb s).sp = s.sp := rfl
@[simp] theorem setFb_stack (fb : Framebuffer) : (State.setFb fb s).stack = s.stack := rfl
@[simp] theorem setFb_DT (fb : Framebuffer) : (State.setFb fb s).DT = s.DT := rfl
@[simp] theorem setFb_ST (fb : Framebuffer) : (State.setFb fb s).ST = s.ST := rfl
@[simp] theorem setFb_mem (fb : Framebuffer) : (State.setFb fb s).mem = s.mem := rfl
@[simp] theorem setFb_fb (fb : Framebuffer) : (State.setFb fb s).fb = fb := rfl
@[simp] theorem setFb_faulted (fb : Framebuffer) : (State.setFb fb s).faulted = s.faulted := rfl
@[simp] theorem setFb_keys (fb : Framebuffer) : (State.setFb fb s).keys = s.keys := rfl
@[simp] theorem setFb_draws (fb : Framebuffer) : (State.setFb fb s).draws = s.draws := rfl

/-! ### State.setKeys -/

@[simp] theorem setKeys_V (keys : Keypad) : (State.setKeys keys s).V = s.V := rfl
@[simp] theorem setKeys_I (keys : Keypad) : (State.setKeys keys s).I = s.I := rfl
@[simp] theorem setKeys_pc (keys : Keypad) : (State.setKeys keys s).pc = s.pc := rfl
@[simp] theorem setKeys_sp (keys : Keypad) : (State.setKeys keys s).sp = s.sp := rfl
@[simp] theorem setKeys_stack (keys : Keypad) : (State.setKeys keys s).stack = s.stack := rfl
@[simp] theorem setKeys_DT (keys : Keypad) : (State.setKeys keys s).DT = s.DT := rfl
@[simp] theorem setKeys_ST (keys : Keypad) : (State.setKeys keys s).ST = s.ST := rfl
@[simp] theorem setKeys_mem (keys : Keypad) : (State.setKeys keys s).mem = s.mem := rfl
@[simp] theorem setKeys_fb (keys : Keypad) : (State.setKeys keys s).fb = s.fb := rfl
@[simp] theorem setKeys_faulted (keys : Keypad) : (State.setKeys keys s).faulted = s.faulted := rfl
@[simp] theorem setKeys_keys (keys : Keypad) : (State.setKeys keys s).keys = keys := rfl
@[simp] theorem setKeys_draws (keys : Keypad) : (State.setKeys keys s).draws = s.draws := rfl

/-! ### State.setReg -/

@[simp] theorem setReg_V (x : Nibble) (v : Byte) : (State.setReg x v s).V = s.V.set x.toNat v x.isLt := rfl
@[simp] theorem setReg_I (x : Nibble) (v : Byte) : (State.setReg x v s).I = s.I := rfl
@[simp] theorem setReg_pc (x : Nibble) (v : Byte) : (State.setReg x v s).pc = s.pc := rfl
@[simp] theorem setReg_sp (x : Nibble) (v : Byte) : (State.setReg x v s).sp = s.sp := rfl
@[simp] theorem setReg_stack (x : Nibble) (v : Byte) : (State.setReg x v s).stack = s.stack := rfl
@[simp] theorem setReg_DT (x : Nibble) (v : Byte) : (State.setReg x v s).DT = s.DT := rfl
@[simp] theorem setReg_ST (x : Nibble) (v : Byte) : (State.setReg x v s).ST = s.ST := rfl
@[simp] theorem setReg_mem (x : Nibble) (v : Byte) : (State.setReg x v s).mem = s.mem := rfl
@[simp] theorem setReg_fb (x : Nibble) (v : Byte) : (State.setReg x v s).fb = s.fb := rfl
@[simp] theorem setReg_faulted (x : Nibble) (v : Byte) : (State.setReg x v s).faulted = s.faulted := rfl
@[simp] theorem setReg_keys (x : Nibble) (v : Byte) : (State.setReg x v s).keys = s.keys := rfl
@[simp] theorem setReg_draws (x : Nibble) (v : Byte) : (State.setReg x v s).draws = s.draws := rfl

/-! ### State.advance -/

@[simp] theorem advance_V : (State.advance s).V = s.V := rfl
@[simp] theorem advance_I : (State.advance s).I = s.I := rfl
@[simp] theorem advance_pc : (State.advance s).pc = s.pc + 2 := rfl
@[simp] theorem advance_sp : (State.advance s).sp = s.sp := rfl
@[simp] theorem advance_stack : (State.advance s).stack = s.stack := rfl
@[simp] theorem advance_DT : (State.advance s).DT = s.DT := rfl
@[simp] theorem advance_ST : (State.advance s).ST = s.ST := rfl
@[simp] theorem advance_mem : (State.advance s).mem = s.mem := rfl
@[simp] theorem advance_fb : (State.advance s).fb = s.fb := rfl
@[simp] theorem advance_faulted : (State.advance s).faulted = s.faulted := rfl
@[simp] theorem advance_keys : (State.advance s).keys = s.keys := rfl
@[simp] theorem advance_draws : (State.advance s).draws = s.draws := rfl

/-! ### State.rewind -/

@[simp] theorem rewind_V : (State.rewind s).V = s.V := rfl
@[simp] theorem rewind_I : (State.rewind s).I = s.I := rfl
@[simp] theorem rewind_pc : (State.rewind s).pc = s.pc - 2 := rfl
@[simp] theorem rewind_sp : (State.rewind s).sp = s.sp := rfl
@[simp] theorem rewind_stack : (State.rewind s).stack = s.stack := rfl
@[simp] theorem rewind_DT : (State.rewind s).DT = s.DT := rfl
@[simp] theorem rewind_ST : (State.rewind s).ST = s.ST := rfl
@[simp] theorem rewind_mem : (State.rewind s).mem = s.mem := rfl
@[simp] theorem rewind_fb : (State.rewind s).fb = s.fb := rfl
@[simp] theorem rewind_faulted : (State.rewind s).faulted = s.faulted := rfl
@[simp] theorem rewind_keys : (State.rewind s).keys = s.keys := rfl
@[simp] theorem rewind_draws : (State.rewind s).draws = s.draws := rfl

/-! ### State.tick -/

@[simp] theorem tick_V : (State.tick s).V = s.V := rfl
@[simp] theorem tick_I : (State.tick s).I = s.I := rfl
@[simp] theorem tick_pc : (State.tick s).pc = s.pc := rfl
@[simp] theorem tick_sp : (State.tick s).sp = s.sp := rfl
@[simp] theorem tick_stack : (State.tick s).stack = s.stack := rfl
@[simp] theorem tick_DT : (State.tick s).DT = tickTimer s.DT := rfl
@[simp] theorem tick_ST : (State.tick s).ST = tickTimer s.ST := rfl
@[simp] theorem tick_mem : (State.tick s).mem = s.mem := rfl
@[simp] theorem tick_fb : (State.tick s).fb = s.fb := rfl
@[simp] theorem tick_faulted : (State.tick s).faulted = s.faulted := rfl
@[simp] theorem tick_keys : (State.tick s).keys = s.keys := rfl
@[simp] theorem tick_draws : (State.tick s).draws = s.draws := rfl

/-! ### State.drawn -/

@[simp] theorem drawn_V : (State.drawn s).V = s.V := rfl
@[simp] theorem drawn_I : (State.drawn s).I = s.I := rfl
@[simp] theorem drawn_pc : (State.drawn s).pc = s.pc := rfl
@[simp] theorem drawn_sp : (State.drawn s).sp = s.sp := rfl
@[simp] theorem drawn_stack : (State.drawn s).stack = s.stack := rfl
@[simp] theorem drawn_DT : (State.drawn s).DT = s.DT := rfl
@[simp] theorem drawn_ST : (State.drawn s).ST = s.ST := rfl
@[simp] theorem drawn_mem : (State.drawn s).mem = s.mem := rfl
@[simp] theorem drawn_fb : (State.drawn s).fb = s.fb := rfl
@[simp] theorem drawn_faulted : (State.drawn s).faulted = s.faulted := rfl
@[simp] theorem drawn_keys : (State.drawn s).keys = s.keys := rfl
@[simp] theorem drawn_draws : (State.drawn s).draws = s.draws + 1 := rfl

/-! ### State.skipIf: only pc can change -/

theorem skipIf_eq (cond : Bool) : s.skipIf cond = s.setPc (if cond then s.pc + 2 else s.pc) := by
  cases cond <;> rfl

@[simp] theorem skipIf_V (cond : Bool) : (s.skipIf cond).V = s.V := by cases cond <;> rfl
@[simp] theorem skipIf_I (cond : Bool) : (s.skipIf cond).I = s.I := by cases cond <;> rfl
@[simp] theorem skipIf_pc (cond : Bool) : (s.skipIf cond).pc = (if cond then s.pc + 2 else s.pc) := by cases cond <;> rfl
@[simp] theorem skipIf_sp (cond : Bool) : (s.skipIf cond).sp = s.sp := by cases cond <;> rfl
@[simp] theorem skipIf_stack (cond : Bool) : (s.skipIf cond).stack = s.stack := by cases cond <;> rfl
@[simp] theorem skipIf_DT (cond : Bool) : (s.skipIf cond).DT = s.DT := by cases cond <;> rfl
@[simp] theorem skipIf_ST (cond : Bool) : (s.skipIf cond).ST = s.ST := by cases cond <;> rfl
@[simp] theorem skipIf_mem (cond : Bool) : (s.skipIf cond).mem = s.mem := by cases cond <;> rfl
@[simp] theorem skipIf_fb (cond : Bool) : (s.skipIf cond).fb = s.fb := by cases cond <;> rfl
@[simp] theorem skipIf_faulted (cond : Bool) : (s.skipIf cond).faulted = s.faulted := by cases cond <;> rfl
@[simp] theorem skipIf_keys (cond : Bool) : (s.skipIf cond).keys = s.keys := by cases cond <;> rfl
@[simp] theorem skipIf_draws (cond : Bool) : (s.skipIf cond).draws = s.draws := by cases cond <;> rfl

/-! ### Registers -/

/-- A register read after a write of the register file. -/
theorem reg_setReg (x z : Nibble) (v : Byte) : (s.setReg x v).reg z = if z = x then v else s.reg z := by
  unfold State.reg
  rw [show (s.setReg x v).V = s.V.set x.toNat v x.isLt from rfl, Vector.getElem_set]
  by_cases h : z = x
  · subst h; simp
  · have : x.toNat ≠ z.toNat := fun e => h (BitVec.eq_of_toNat_eq e.symm)
    simp [h, this]

@[simp] theorem reg_setReg_same (x : Nibble) (v : Byte) : (s.setReg x v).reg x = v := by simp [reg_setReg]

theorem reg_setReg_ne (x z : Nibble) (v : Byte) (h : z ≠ x) : (s.setReg x v).reg z = s.reg z := by
  simp [reg_setReg, h]

@[simp] theorem setI_reg (v : Word) (x : Nibble) : (State.setI v s).reg x = s.reg x := rfl
@[simp] theorem setPc_reg (target : Word) (x : Nibble) : (State.setPc target s).reg x = s.reg x := rfl
@[simp] theorem setDt_reg (v : Byte) (x : Nibble) : (State.setDt v s).reg x = s.reg x := rfl
@[simp] theorem setSt_reg (v : Byte) (x : Nibble) : (State.setSt v s).reg x = s.reg x := rfl
@[simp] theorem setMem_reg (m : Memory) (x : Nibble) : (State.setMem m s).reg x = s.reg x := rfl
@[simp] theorem setFb_reg (fb : Framebuffer) (x : Nibble) : (State.setFb fb s).reg x = s.reg x := rfl
@[simp] theorem setKeys_reg (keys : Keypad) (x : Nibble) : (State.setKeys keys s).reg x = s.reg x := rfl
@[simp] theorem advance_reg (x : Nibble) : (State.advance s).reg x = s.reg x := rfl
@[simp] theorem rewind_reg (x : Nibble) : (State.rewind s).reg x = s.reg x := rfl
@[simp] theorem tick_reg (x : Nibble) : (State.tick s).reg x = s.reg x := rfl
@[simp] theorem drawn_reg (x : Nibble) : (State.drawn s).reg x = s.reg x := rfl
@[simp] theorem skipIf_reg (cond : Bool) (x : Nibble) : (s.skipIf cond).reg x = s.reg x := by cases cond <;> rfl

/-- What a flag-writing instruction leaves in every register under the machine's write order (R173): VF the flag, then
the destination the result, then every other register its old value. -/
theorem reg_writeResultAndFlag_flagLast (x z : Nibble) (r f : Byte) :
    (writeResultAndFlag .flagLast x r f s).reg z = if z = regF then f else if z = x then r else s.reg z := by
  simp only [writeResultAndFlag, reg_setReg]

/-- A flag-writing instruction changes the register file and nothing else. -/
theorem writeResultAndFlag_frame (order : VfWriteOrder) (x : Nibble) (r f : Byte) :
    writeResultAndFlag order x r f s = { s with V := (writeResultAndFlag order x r f s).V } := by
  cases order <;> rfl

/-! ### Taking a fault (R251) -/

@[simp] theorem takeFault_faulted (f : Fault) : (takeFault f s).faulted = some f := rfl
@[simp] theorem takeFault_keys (f : Fault) : (takeFault f s).keys = s.keys := rfl
@[simp] theorem takeFault_draws (f : Fault) : (takeFault f s).draws = s.draws + 1 := rfl

end Sys2Proof.Machine
end

