-- ==== Sys2Proof/Laws/Ops.lean ====
section
/-! SUPPORT. What each shared operation over registers, the call stack, the keypad and the timers can do, said once. -/

namespace Sys2Proof.Machine

/-! ## Call stack -/

theorem pushPc_room (s : State) (h : s.sp.val < 16) :
    pushPc s = .ok { s with stack := s.stack.set s.sp.val s.pc h, sp := ⟨s.sp.val + 1, by omega⟩ } := by
  simp [pushPc, h]

theorem pushPc_full (s : State) (h : s.sp.val = 16) : pushPc s = .error .stackOverflow := by
  simp [pushPc, h]

theorem popPc_some (s : State) (h : 0 < s.sp.val) :
    popPc s = .ok { s with sp := ⟨s.sp.val - 1, by omega⟩, pc := s.stack[s.sp.val - 1]'(by omega) } := by
  simp [popPc, h]

theorem popPc_empty (s : State) (h : s.sp.val = 0) : popPc s = .error .stackUnderflow := by
  simp [popPc, h]

/-! ## Keypad -/

theorem readKey_inside (s : State) (k : Byte) (h : k.toNat < 16) : readKey s k = .ok (s.keys[k.toNat]'h) := by
  simp [readKey, h]

theorem readKey_outside (s : State) (k : Byte) (h : 16 ≤ k.toNat) : readKey s k = .error (.keyIndexFault k) := by
  simp [readKey, Nat.not_lt.mpr h]

/-- The scan finds a key exactly when it is pressed and no lower key is. -/
theorem leastPressed_some (keys : Keypad) (k : Nat) :
    leastPressed keys = some k ↔ ∃ h : k < 16, keys[k] = true ∧ ∀ j, (hj : j < k) → keys[j] = false := by
  unfold leastPressed
  rw [List.findIdx?_eq_some_iff_getElem]
  simp

/-- The scan finds nothing exactly when no key is pressed. -/
theorem leastPressed_none (keys : Keypad) :
    leastPressed keys = none ↔ ∀ k, (h : k < 16) → keys[k] = false := by
  unfold leastPressed
  rw [List.findIdx?_eq_none_iff]
  constructor
  · intro h k hk
    have := h keys[k] (by simp)
    simpa using this
  · intro h b hb
    obtain ⟨i, hi, rfl⟩ := List.getElem_of_mem hb
    simpa using h i (by simpa using hi)

/-! ## Loading a run of registers -/

/-- Registers written in order from one on: each of them holds its value, every other one what it held. -/
theorem getElem_setRegsFrom (start : Nat) (vs : List Byte) (regs : Vector Byte 16) (i : Nat) (hi : i < 16) :
    (setRegsFrom start vs regs)[i] =
      if h : start ≤ i ∧ i < start + vs.length then vs[i - start]'(by omega) else regs[i] := by
  induction vs generalizing start regs with
  | nil => simp [setRegsFrom]
  | cons v vs ih =>
    rw [setRegsFrom, ih]
    simp only [List.length_cons]
    by_cases h1 : start = i
    · subst h1
      have : ¬(start + 1 ≤ start ∧ start < start + 1 + vs.length) := by omega
      simp
    · by_cases h2 : start + 1 ≤ i ∧ i < start + 1 + vs.length
      · rw [dif_pos h2, dif_pos (by omega)]
        simp only [show i - start = (i - (start + 1)) + 1 by omega, List.getElem_cons_succ]
      · rw [dif_neg h2, dif_neg (by omega), Vector.getElem_setIfInBounds_ne]
        exact h1

/-- The values stored by LD [I], Vx: x + 1 of them, the i-th that of register i. -/
theorem regsUpTo_length (s : State) (x : Nibble) : (s.regsUpTo x).length = x.toNat + 1 := by
  have := x.isLt
  simp [State.regsUpTo]; omega

theorem regsUpTo_getElem (s : State) (x : Nibble) (i : Nat) (h : i < (s.regsUpTo x).length) :
    (s.regsUpTo x)[i] = s.V[i]'(by have := x.isLt; rw [regsUpTo_length] at h; omega) := by
  simp [State.regsUpTo]

/-! ## Timers -/

/-- A tick takes one away, and leaves 0 at 0 (R31). -/
theorem tickTimer_toNat (t : Byte) : (tickTimer t).toNat = t.toNat - 1 := by
  revert t; decide

/-! ## Outcomes -/

theorem outcomeOf_next (r : Except Fault State) (t : State) : outcomeOf r = .next t ↔ r = .ok t := by
  cases r <;> simp [outcomeOf]

end Sys2Proof.Machine
end

