-- ==== Sys2Proof/Laws/Meanings.lean ====
section
/-! SUPPORT. What each instruction that can fault answers: its next state when it completes, its fault when it does not;
and what an instruction that cannot fault answers is its meaning by definition. -/

namespace Sys2Proof.Machine

theorem exec_call_room (addr : Addr12) (s : State) (h : s.sp.val < 16) :
    exec (.call addr) s = .next { s with
      stack := s.stack.set s.sp.val s.pc h, sp := ⟨s.sp.val + 1, by omega⟩, pc := zextAddr addr } := by
  simp [exec, execCall, pushPc_room s h, State.setPc]

theorem exec_call_full (addr : Addr12) (s : State) (h : s.sp.val = 16) :
    exec (.call addr) s = .fault .stackOverflow := by
  simp [exec, execCall, pushPc_full s h]

theorem exec_ret_some (s : State) (h : 0 < s.sp.val) :
    exec .ret s = .next { s with sp := ⟨s.sp.val - 1, by omega⟩, pc := s.stack[s.sp.val - 1]'(by omega) } := by
  simp [exec, execRet, popPc_some s h, outcomeOf]

theorem exec_ret_empty (s : State) (h : s.sp.val = 0) : exec .ret s = .fault .stackUnderflow := by
  simp [exec, execRet, popPc_empty s h, outcomeOf]

theorem exec_skp_inside (x : Nibble) (s : State) (h : (s.reg x).toNat < 16) :
    exec (.skp x) s = .next (s.skipIf s.keys[(s.reg x).toNat]) := by
  simp [exec, execSkp, readKey_inside s _ h]

theorem exec_sknp_inside (x : Nibble) (s : State) (h : (s.reg x).toNat < 16) :
    exec (.sknp x) s = .next (s.skipIf (!s.keys[(s.reg x).toNat])) := by
  simp [exec, execSknp, readKey_inside s _ h]

theorem exec_skp_outside (x : Nibble) (s : State) (h : 16 ≤ (s.reg x).toNat) :
    exec (.skp x) s = .fault (.keyIndexFault (s.reg x)) := by
  simp [exec, execSkp, readKey_outside s _ h]

theorem exec_sknp_outside (x : Nibble) (s : State) (h : 16 ≤ (s.reg x).toNat) :
    exec (.sknp x) s = .fault (.keyIndexFault (s.reg x)) := by
  simp [exec, execSknp, readKey_outside s _ h]

theorem exec_ldVxK_some (x : Nibble) (s : State) (k : Nat) (h : leastPressed s.keys = some k) :
    exec (.ldVxK x) s = .next (s.setReg x (BitVec.ofNat 8 k)) := by
  simp [exec, execLdVxK, h]

theorem exec_ldVxK_none (x : Nibble) (s : State) (h : leastPressed s.keys = none) :
    exec (.ldVxK x) s = .next s.rewind := by
  simp [exec, execLdVxK, h]

/-- Where a data access of `n + 1` bytes at I that does not fit faults. -/
theorem firstOutside (s : State) : max s.base memSize = if s.I.toNat ≤ 4095 then 4096 else s.I.toNat := by
  unfold State.base memSize; split <;> omega

theorem bcdDigits_length (v : Byte) : (bcdDigits v).length = 3 := rfl

theorem exec_ldB_inside (x : Nibble) (s : State) (h : s.I.toNat + 2 ≤ 4095) :
    ∃ m, storeBytes s.base (bcdDigits (s.reg x)) s.mem = .ok m ∧ exec (.ldB x) s = .next (s.setMem m) := by
  obtain ⟨m, hm⟩ := storeBytes_fits s.base (bcdDigits (s.reg x)) s.mem
    (by rw [bcdDigits_length]; simp only [State.base, memSize]; omega)
  exact ⟨m, hm, by simp [exec, execLdB, hm]⟩

theorem exec_ldB_outside (x : Nibble) (s : State) (h : 4095 < s.I.toNat + 2) :
    exec (.ldB x) s = .fault (.memFault (if s.I.toNat ≤ 4095 then 4096 else s.I.toNat)) := by
  simp only [exec, execLdB]
  rw [storeBytes_overflows _ _ _ (by simp [bcdDigits])
    (by rw [bcdDigits_length]; simp only [State.base, memSize]; omega), firstOutside]

theorem exec_stRegs_inside (x : Nibble) (s : State) (h : s.I.toNat + x.toNat ≤ 4095) :
    ∃ m, storeBytes s.base (s.regsUpTo x) s.mem = .ok m ∧ exec (.stRegs x) s = .next (s.setMem m) := by
  obtain ⟨m, hm⟩ := storeBytes_fits s.base (s.regsUpTo x) s.mem
    (by rw [regsUpTo_length]; simp only [State.base, memSize]; omega)
  exact ⟨m, hm, by simp [exec, execStRegs, hm]⟩

theorem exec_stRegs_outside (x : Nibble) (s : State) (h : 4095 < s.I.toNat + x.toNat) :
    exec (.stRegs x) s = .fault (.memFault (if s.I.toNat ≤ 4095 then 4096 else s.I.toNat)) := by
  have hl := regsUpTo_length s x
  simp only [exec, execStRegs]
  rw [storeBytes_overflows _ _ _ (fun e => by simp [e] at hl)
    (by rw [hl]; simp only [State.base, memSize]; omega), firstOutside]

theorem exec_ldRegs_inside (x : Nibble) (s : State) (h : s.I.toNat + x.toNat ≤ 4095) :
    exec (.ldRegs x) s = .next { s with
      V := setRegsFrom 0 ((List.range (x.toNat + 1)).map (fun i => Memory.read s.mem (s.base + i))) s.V } := by
  have := loadBytes_fits s.mem s.base (x.toNat + 1) (by simp only [State.base, memSize]; omega)
  simp only [exec, execLdRegs, this]

theorem exec_ldRegs_outside (x : Nibble) (s : State) (h : 4095 < s.I.toNat + x.toNat) :
    exec (.ldRegs x) s = .fault (.memFault (if s.I.toNat ≤ 4095 then 4096 else s.I.toNat)) := by
  simp only [exec, execLdRegs]
  rw [loadBytes_overflows _ _ _ (by omega) (by simp only [State.base, memSize]; omega), firstOutside]

/-- DRW answers what the blit answers: the drawn framebuffer and the collision flag, or the blit's fault. -/
theorem exec_drw_ok (x y n : Nibble) (s : State) (d : Drawing)
    (h : drawSprite fbEdgePolicy s.mem s.base (s.spriteX x) (s.spriteY y) n.toNat s.fb = .ok d) :
    exec (.drw x y n) s = .next ((s.setFb d.fb).setReg regF (flagByte d.hit)) := by
  simp [exec, execDrw, h]

theorem exec_drw_error (x y n : Nibble) (s : State) (f : Fault)
    (h : drawSprite fbEdgePolicy s.mem s.base (s.spriteX x) (s.spriteY y) n.toNat s.fb = .error f) :
    exec (.drw x y n) s = .fault f := by
  simp [exec, execDrw, h]

end Sys2Proof.Machine
end

