-- ==== Sys2Proof/Laws/PerInstr.lean ====
section
/-! SUPPORT. A family of statements made per instruction. RowBits: the rows of the opcode table that match the encoded word
of a well-formed instruction are the instruction's own row and no other, and none for a no-operation (R95, R101, R103). -/

namespace Sys2Proof.Laws.RowBits

/-- The mnemonics of the rows of R95 that match a word. -/
def matchingMnemonics (op : Word) : List String := (opcodeTable.filter (rowMatches op)).map OpcodeRow.mnemonic

/-- The statement about one instruction. -/
def Statement (i : Instr) : Prop :=
  i.wellFormed = true →
    matchingMnemonics (encode i) = if mnemonicOf i = "NOP_UNMATCHED" then [] else [mnemonicOf i]

theorem rowMatches_family (op pattern : Word) (name : String) :
    rowMatches op ⟨name, 0xF000#16, pattern⟩ =
      decide (pattern.toNat % 4096 = 0 ∧ (opFamily op).toNat = pattern.toNat / 4096) := by
  rw [Bool.eq_iff_iff, decide_eq_true_iff, ← mask_family]; simp [rowMatches]

theorem rowMatches_family_nibble (op pattern : Word) (name : String) :
    rowMatches op ⟨name, 0xF00F#16, pattern⟩ = decide (pattern.toNat / 16 % 256 = 0 ∧
      (opFamily op).toNat = pattern.toNat / 4096 ∧ (opN op).toNat = pattern.toNat % 16) := by
  rw [Bool.eq_iff_iff, decide_eq_true_iff, ← mask_family_nibble]; simp [rowMatches]

theorem rowMatches_family_byte (op pattern : Word) (name : String) :
    rowMatches op ⟨name, 0xF0FF#16, pattern⟩ = decide (pattern.toNat / 256 % 16 = 0 ∧
      (opFamily op).toNat = pattern.toNat / 4096 ∧ (opKk op).toNat = pattern.toNat % 256) := by
  rw [Bool.eq_iff_iff, decide_eq_true_iff, ← mask_family_byte]; simp [rowMatches]

/-- A row of the table as it reads a word through its family, low nibble and low byte. -/
def rowSelects (family n : Nat) (kk : Nat) (r : OpcodeRow) : Bool :=
  if r.mask = 0xF000#16 then decide (family = r.pattern.toNat / 4096)
  else if r.mask = 0xF00F#16 then decide (family = r.pattern.toNat / 4096 ∧ n = r.pattern.toNat % 16)
  else decide (family = r.pattern.toNat / 4096 ∧ kk = r.pattern.toNat % 256)

/-- Every row of the table looks at the family, the low nibble and the low byte only (R96 to R100). -/
theorem rowMatches_eq_rowSelects (op : Word) :
    ∀ r ∈ opcodeTable, rowMatches op r = rowSelects (opFamily op).toNat (opN op).toNat (opKk op).toNat r := by
  have hk : ∀ r ∈ opcodeTable, (r.mask = 0xF000#16 ∧ r.pattern.toNat % 4096 = 0) ∨
      (r.mask = 0xF00F#16 ∧ r.pattern.toNat / 16 % 256 = 0) ∨
      (r.mask = 0xF0FF#16 ∧ r.pattern.toNat / 256 % 16 = 0) := by decide
  intro r hr
  obtain ⟨name, mask, pattern⟩ := r
  rcases hk _ hr with ⟨rfl, h⟩ | ⟨rfl, h⟩ | ⟨rfl, h⟩
  · rw [rowMatches_family]; simp_all [rowSelects]
  · rw [rowMatches_family_nibble]; simp_all [rowSelects]
  · rw [rowMatches_family_byte]; simp_all [rowSelects]

theorem matchingMnemonics_eq (op : Word) :
    matchingMnemonics op =
      (opcodeTable.filter (rowSelects (opFamily op).toNat (opN op).toNat (opKk op).toNat)).map OpcodeRow.mnemonic := by
  unfold matchingMnemonics
  rw [List.filter_congr (rowMatches_eq_rowSelects op)]

/-- In the twelve families with one instruction the family alone selects the row (R96). -/
theorem rows_of_single_family (family n kk : Nat)
    (h : family ∈ [0x1, 0x2, 0x3, 0x4, 0x5, 0x6, 0x7, 0x9, 0xA, 0xB, 0xC, 0xD]) :
    (opcodeTable.filter (rowSelects family n kk)).map OpcodeRow.mnemonic =
      (opcodeTable.filter (rowSelects family 0 0)).map OpcodeRow.mnemonic := by
  simp only [List.mem_cons, List.not_mem_nil, or_false] at h
  rcases h with rfl | rfl | rfl | rfl | rfl | rfl | rfl | rfl | rfl | rfl | rfl | rfl <;> rfl

/-- In family 0x8 the low nibble selects the row (R97). -/
theorem rows_of_family8 (n kk : Nat) :
    (opcodeTable.filter (rowSelects 0x8 n kk)).map OpcodeRow.mnemonic =
      (opcodeTable.filter (rowSelects 0x8 n 0)).map OpcodeRow.mnemonic := rfl

/-- In families 0x0, 0xE and 0xF the low byte selects the row (R98, R99). -/
theorem rows_of_byte_family (family n kk : Nat) (h : family ∈ [0x0, 0xE, 0xF]) :
    (opcodeTable.filter (rowSelects family n kk)).map OpcodeRow.mnemonic =
      (opcodeTable.filter (rowSelects family 0 kk)).map OpcodeRow.mnemonic := by
  simp only [List.mem_cons, List.not_mem_nil, or_false] at h
  rcases h with rfl | rfl | rfl <;> rfl

theorem cls : Statement (.cls) := by intro _; decide

theorem ret : Statement (.ret) := by intro _; decide

theorem jp (addr : Addr12) : Statement (.jp addr) := by
  intro _
  rw [matchingMnemonics_eq, encode, opFamily_nibble_addr]
  exact (rows_of_single_family _ _ _ (by decide)).trans rfl

theorem call (addr : Addr12) : Statement (.call addr) := by
  intro _
  rw [matchingMnemonics_eq, encode, opFamily_nibble_addr]
  exact (rows_of_single_family _ _ _ (by decide)).trans rfl

theorem seImm (x : Nibble) (kk : Byte) : Statement (.seImm x kk) := by
  intro _
  rw [matchingMnemonics_eq, encode, opFamily_nibbles_byte]
  exact (rows_of_single_family _ _ _ (by decide)).trans rfl

theorem sneImm (x : Nibble) (kk : Byte) : Statement (.sneImm x kk) := by
  intro _
  rw [matchingMnemonics_eq, encode, opFamily_nibbles_byte]
  exact (rows_of_single_family _ _ _ (by decide)).trans rfl

theorem seReg (x y : Nibble) : Statement (.seReg x y) := by
  intro _
  rw [matchingMnemonics_eq, encode, opFamily_nibbles]
  exact (rows_of_single_family _ _ _ (by decide)).trans rfl

theorem ldImm (x : Nibble) (kk : Byte) : Statement (.ldImm x kk) := by
  intro _
  rw [matchingMnemonics_eq, encode, opFamily_nibbles_byte]
  exact (rows_of_single_family _ _ _ (by decide)).trans rfl

theorem addImm (x : Nibble) (kk : Byte) : Statement (.addImm x kk) := by
  intro _
  rw [matchingMnemonics_eq, encode, opFamily_nibbles_byte]
  exact (rows_of_single_family _ _ _ (by decide)).trans rfl

theorem ldReg (x y : Nibble) : Statement (.ldReg x y) := by
  intro _
  rw [matchingMnemonics_eq, encode, opFamily_nibbles, opN_nibbles]
  exact (rows_of_family8 _ _).trans rfl

theorem orReg (x y : Nibble) : Statement (.orReg x y) := by
  intro _
  rw [matchingMnemonics_eq, encode, opFamily_nibbles, opN_nibbles]
  exact (rows_of_family8 _ _).trans rfl

theorem andReg (x y : Nibble) : Statement (.andReg x y) := by
  intro _
  rw [matchingMnemonics_eq, encode, opFamily_nibbles, opN_nibbles]
  exact (rows_of_family8 _ _).trans rfl

theorem xorReg (x y : Nibble) : Statement (.xorReg x y) := by
  intro _
  rw [matchingMnemonics_eq, encode, opFamily_nibbles, opN_nibbles]
  exact (rows_of_family8 _ _).trans rfl

theorem addReg (x y : Nibble) : Statement (.addReg x y) := by
  intro _
  rw [matchingMnemonics_eq, encode, opFamily_nibbles, opN_nibbles]
  exact (rows_of_family8 _ _).trans rfl

theorem sub (x y : Nibble) : Statement (.sub x y) := by
  intro _
  rw [matchingMnemonics_eq, encode, opFamily_nibbles, opN_nibbles]
  exact (rows_of_family8 _ _).trans rfl

theorem shr (x : Nibble) : Statement (.shr x) := by
  intro _
  rw [matchingMnemonics_eq, encode, opFamily_nibbles, opN_nibbles]
  exact (rows_of_family8 _ _).trans rfl

theorem subn (x y : Nibble) : Statement (.subn x y) := by
  intro _
  rw [matchingMnemonics_eq, encode, opFamily_nibbles, opN_nibbles]
  exact (rows_of_family8 _ _).trans rfl

theorem shl (x : Nibble) : Statement (.shl x) := by
  intro _
  rw [matchingMnemonics_eq, encode, opFamily_nibbles, opN_nibbles]
  exact (rows_of_family8 _ _).trans rfl

theorem sneReg (x y : Nibble) : Statement (.sneReg x y) := by
  intro _
  rw [matchingMnemonics_eq, encode, opFamily_nibbles]
  exact (rows_of_single_family _ _ _ (by decide)).trans rfl

theorem ldI (addr : Addr12) : Statement (.ldI addr) := by
  intro _
  rw [matchingMnemonics_eq, encode, opFamily_nibble_addr]
  exact (rows_of_single_family _ _ _ (by decide)).trans rfl

theorem jpV0 (addr : Addr12) : Statement (.jpV0 addr) := by
  intro _
  rw [matchingMnemonics_eq, encode, opFamily_nibble_addr]
  exact (rows_of_single_family _ _ _ (by decide)).trans rfl

theorem rnd (x : Nibble) (kk : Byte) : Statement (.rnd x kk) := by
  intro _
  rw [matchingMnemonics_eq, encode, opFamily_nibbles_byte]
  exact (rows_of_single_family _ _ _ (by decide)).trans rfl

theorem drw (x y n : Nibble) : Statement (.drw x y n) := by
  intro _
  rw [matchingMnemonics_eq, encode, opFamily_nibbles]
  exact (rows_of_single_family _ _ _ (by decide)).trans rfl

theorem skp (x : Nibble) : Statement (.skp x) := by
  intro _
  rw [matchingMnemonics_eq, encode, opFamily_nibbles_byte, opKk_nibbles_byte]
  exact (rows_of_byte_family _ _ _ (by decide)).trans rfl

theorem sknp (x : Nibble) : Statement (.sknp x) := by
  intro _
  rw [matchingMnemonics_eq, encode, opFamily_nibbles_byte, opKk_nibbles_byte]
  exact (rows_of_byte_family _ _ _ (by decide)).trans rfl

theorem ldVxDt (x : Nibble) : Statement (.ldVxDt x) := by
  intro _
  rw [matchingMnemonics_eq, encode, opFamily_nibbles_byte, opKk_nibbles_byte]
  exact (rows_of_byte_family _ _ _ (by decide)).trans rfl

theorem ldVxK (x : Nibble) : Statement (.ldVxK x) := by
  intro _
  rw [matchingMnemonics_eq, encode, opFamily_nibbles_byte, opKk_nibbles_byte]
  exact (rows_of_byte_family _ _ _ (by decide)).trans rfl

theorem ldDtVx (x : Nibble) : Statement (.ldDtVx x) := by
  intro _
  rw [matchingMnemonics_eq, encode, opFamily_nibbles_byte, opKk_nibbles_byte]
  exact (rows_of_byte_family _ _ _ (by decide)).trans rfl

theorem ldStVx (x : Nibble) : Statement (.ldStVx x) := by
  intro _
  rw [matchingMnemonics_eq, encode, opFamily_nibbles_byte, opKk_nibbles_byte]
  exact (rows_of_byte_family _ _ _ (by decide)).trans rfl

theorem addI (x : Nibble) : Statement (.addI x) := by
  intro _
  rw [matchingMnemonics_eq, encode, opFamily_nibbles_byte, opKk_nibbles_byte]
  exact (rows_of_byte_family _ _ _ (by decide)).trans rfl

theorem ldF (x : Nibble) : Statement (.ldF x) := by
  intro _
  rw [matchingMnemonics_eq, encode, opFamily_nibbles_byte, opKk_nibbles_byte]
  exact (rows_of_byte_family _ _ _ (by decide)).trans rfl

theorem ldB (x : Nibble) : Statement (.ldB x) := by
  intro _
  rw [matchingMnemonics_eq, encode, opFamily_nibbles_byte, opKk_nibbles_byte]
  exact (rows_of_byte_family _ _ _ (by decide)).trans rfl

theorem stRegs (x : Nibble) : Statement (.stRegs x) := by
  intro _
  rw [matchingMnemonics_eq, encode, opFamily_nibbles_byte, opKk_nibbles_byte]
  exact (rows_of_byte_family _ _ _ (by decide)).trans rfl

theorem ldRegs (x : Nibble) : Statement (.ldRegs x) := by
  intro _
  rw [matchingMnemonics_eq, encode, opFamily_nibbles_byte, opKk_nibbles_byte]
  exact (rows_of_byte_family _ _ _ (by decide)).trans rfl

theorem nopUnmatched (word : Word) : Statement (.nopUnmatched word) := by
  intro h
  have hnone : ∀ r ∈ opcodeTable, ¬rowMatches word r = true := by
    simpa [Instr.wellFormed, unmatchedWord] using h
  simpa [matchingMnemonics, encode, mnemonicOf, List.filter_eq_nil_iff] using hnone

end Sys2Proof.Laws.RowBits
end

