-- ==== Sys2Proof/Laws/Step.lean ====
section
/-! SUPPORT. What a step can do, said once: a faulted machine stays, a fetch outside memory faults, and every other step is
the fetched instruction executed on the advanced state and then ticked. -/

namespace Sys2Proof.Machine

/-- A faulted machine is left as it is (R129). -/
theorem step_faulted (s : State) (h : s.faulted ≠ none) : step s = .next s := by
  unfold step cycle
  split
  · rfl
  · next hn => exact absurd hn h

/-- A Cycle that cannot fetch raises the fetch's fault (R121). -/
theorem step_fetchFault (s : State) (h : s.faulted = none) (hpc : memSize ≤ s.pc.toNat + 1) :
    step s = .fault (.memFault (max s.pc.toNat memSize)) := by
  simp [step, cycle, h, fetch16_outside _ _ hpc]

/-- A Cycle that fetches runs the opcode (R120). -/
theorem step_runs (s : State) (h : s.faulted = none) (hpc : s.pc.toNat + 1 < memSize) :
    step s = tickOutcome (exec (decodeWord (wordOfBytes (Memory.read s.mem s.pc.toNat) (Memory.read s.mem (s.pc.toNat + 1))))
      s.advance) := by
  simp [step, cycle, h, fetch16_inside _ _ hpc, runOpcode]

/-- What the next Cycle decodes. -/
theorem nextInstr_inside (s : State) (hpc : s.pc.toNat + 1 < memSize) :
    nextInstr s = some (decodeWord (wordOfBytes (Memory.read s.mem s.pc.toNat) (Memory.read s.mem (s.pc.toNat + 1)))) := by
  simp [nextInstr, fetch16_inside _ _ hpc]

theorem tickOutcome_next (r : Host.Outcome State Fault Refusal) (t : State) :
    tickOutcome r = .next t ↔ ∃ u, r = .next u ∧ t = u.tick := by
  cases r <;> simp [tickOutcome, eq_comm]

/-- Everything a step that answers a next state can have done. -/
theorem step_next (s t : State) (h : step s = .next t) :
    (s.faulted ≠ none ∧ t = s) ∨
    (s.faulted = none ∧ s.pc.toNat + 1 < memSize ∧
      ∃ i u, nextInstr s = some i ∧ exec i s.advance = .next u ∧ t = u.tick) := by
  by_cases hf : s.faulted = none
  · by_cases hpc : s.pc.toNat + 1 < memSize
    · rw [step_runs s hf hpc, tickOutcome_next] at h
      obtain ⟨u, hu, ht⟩ := h
      exact .inr ⟨hf, hpc, _, u, nextInstr_inside s hpc, hu, ht⟩
    · rw [step_fetchFault s hf (by omega)] at h
      cases h
  · rw [step_faulted s hf] at h
    exact .inl ⟨hf, (Host.Outcome.next.inj h).symm⟩

end Sys2Proof.Machine
end

