-- ==== Sys2Proof/Tests/Slice0.lean ====
section
/-! SUPPORT. Tests, with expected results from the spec's test vectors (spec 95_test_vectors.md; the name of a test ends in
the id of its vector), and for each obligation with hypotheses a witness that meets them. -/

namespace Sys2Proof.Tests

open Sys2Proof.Machine Sys2Proof.Claims

/-! ## Building a start state: the base state of the vectors with differences -/

/-- Registers set. -/
def regs (l : List (Nibble × Byte)) (s : State) : State := l.foldl (fun s r => s.setReg r.1 r.2) s

/-- Bytes stored from an address on. -/
def put (a : Nat) (bs : List Byte) (s : State) : State :=
  match storeBytes a bs s.mem with
  | .ok m => s.setMem m
  | .error _ => s

/-- Cells lit, each as (column, row). -/
def lit (l : List (Nat × Nat)) (s : State) : State := s.setFb (l.foldl (fun fb c => fbFlip fb c.2 c.1) s.fb)

/-- Keys pressed. -/
def press (l : List Nat) (s : State) : State := s.setKeys (l.foldl (fun ks k => ks.setIfInBounds k true) s.keys)

/-- The stack slots in use, oldest first. -/
def stacked (l : List Word) (s : State) : State :=
  { s with sp := Fin.ofNat 17 l.length, stack := (l.zipIdx).foldl (fun st w => st.setIfInBounds w.2 w.1) s.stack }

/-- So many stack slots in use, all zero. -/
def deep (n : Fin 17) (s : State) : State := { s with sp := n }

/-- The base state with differences and a word at pc. -/
def start (w : Nat) (f : State → State) : State := (f State.reset).withFetchWord 16 w

/-- What a probe sees after one Cycle, if it completes. -/
def after {α : Type} (w : Nat) (f : State → State) (probe : State → α) : Option α :=
  match step (start w f) with
  | .next t => some (probe t)
  | .fault _ => none
  | .refused _ => none

/-- The fault of an outcome. -/
def faultOf : Host.Outcome State Fault Refusal → Option Fault
  | .next _ => none
  | .fault f => some f
  | .refused _ => none

/-- An outcome is a next state. -/
def isNext : Host.Outcome State Fault Refusal → Bool
  | .next _ => true
  | .fault _ => false
  | .refused _ => false

/-- The lit cells of the top left 64 by `rows` region, as (column, row). -/
def litIn (rows : Nat) (fb : Framebuffer) : List (Nat × Nat) :=
  (List.range rows).flatMap (fun y => ((List.range 64).filter (fun x => fbCell fb y x)).map (fun x => (x, y)))

theorem next_of_isNext (r : Host.Outcome State Fault Refusal) (h : isNext r = true) : ∃ t, r = .next t := by
  cases r with
  | next t => exact ⟨t, rfl⟩
  | fault _ => cases h
  | refused _ => cases h

theorem fault_of_faultOf (r : Host.Outcome State Fault Refusal) (f : Fault) (h : faultOf r = some f) : r = .fault f := by
  cases r with
  | next _ => cases h
  | fault g => cases h; rfl
  | refused _ => cases h

/-! ## Well-formedness (R101) -/

theorem test_wellFormed_nop : Instr.wellFormed (.nopUnmatched 0x8008) = true := by decide
theorem test_illFormed_nop_cls : Instr.wellFormed (.nopUnmatched 0x07E0) = false := by decide
theorem test_illFormed_nop_drw : Instr.wellFormed (.nopUnmatched 0xD125) = false := by decide

/-! ## Decoding: a word of every constructor, written bit by bit from R95 -/

theorem test_decode_family0 : decodeWord 0b0000011111100000 = .cls ∧ decodeWord 0b0000101011101110 = .ret ∧
    decodeWord 0b0000000100100011 = .nopUnmatched 0x0123 := by decide
theorem test_decode_jumps : decodeWord 0b0001001000110100 = .jp 0x234 ∧ decodeWord 0b0010001100000000 = .call 0x300 ∧
    decodeWord 0b1011111111111111 = .jpV0 0xFFF := by decide
theorem test_decode_skips : decodeWord 0b0011001100101010 = .seImm 3 0x2A ∧ decodeWord 0b0100111100000000 = .sneImm 15 0 ∧
    decodeWord 0b0101000100101011 = .seReg 1 2 ∧ decodeWord 0b1001000100101111 = .sneReg 1 2 := by decide
theorem test_decode_immediates : decodeWord 0b0110101000101111 = .ldImm 10 0x2F ∧
    decodeWord 0b0111000100000101 = .addImm 1 5 ∧ decodeWord 0b1100001100001111 = .rnd 3 0x0F := by decide
theorem test_decode_copy_logic : decodeWord 0b1000000100100000 = .ldReg 1 2 ∧ decodeWord 0b1000000100100001 = .orReg 1 2 ∧
    decodeWord 0b1000000100100010 = .andReg 1 2 ∧ decodeWord 0b1000000100100011 = .xorReg 1 2 := by decide
theorem test_decode_flagged : decodeWord 0b1000000100100100 = .addReg 1 2 ∧ decodeWord 0b1000000100100101 = .sub 1 2 ∧
    decodeWord 0b1000000100100110 = .shr 1 ∧ decodeWord 0b1000000100100111 = .subn 1 2 ∧
    decodeWord 0b1000000100101110 = .shl 1 := by decide
theorem test_decode_index_display : decodeWord 0b1010001011110000 = .ldI 0x2F0 ∧
    decodeWord 0b1101000100100101 = .drw 1 2 5 := by decide
theorem test_decode_keys : decodeWord 0b1110001010011110 = .skp 2 ∧ decodeWord 0b1110001010100001 = .sknp 2 ∧
    decodeWord 0b1111010000001010 = .ldVxK 4 := by decide
theorem test_decode_timers : decodeWord 0b1111001100000111 = .ldVxDt 3 ∧ decodeWord 0b1111001100010101 = .ldDtVx 3 ∧
    decodeWord 0b1111001100011000 = .ldStVx 3 := by decide
theorem test_decode_memory : decodeWord 0b1111001000011110 = .addI 2 ∧ decodeWord 0b1111010000101001 = .ldF 4 ∧
    decodeWord 0b1111001100110011 = .ldB 3 ∧ decodeWord 0b1111001001010101 = .stRegs 2 ∧
    decodeWord 0b1111001001100101 = .ldRegs 2 := by decide
/-- Vectors D3 to D13: words next to an instruction that match no row. -/
theorem test_decode_unmatched : [0x00E1#16, 0x00FE#16, 0x8009#16, 0x812F#16, 0xE19F#16, 0xE101#16, 0xF000#16, 0xF1FF#16,
    0xF175#16, 0xFFFF#16].map decodeWord = [.nopUnmatched 0x00E1, .nopUnmatched 0x00FE, .nopUnmatched 0x8009,
    .nopUnmatched 0x812F, .nopUnmatched 0xE19F, .nopUnmatched 0xE101, .nopUnmatched 0xF000, .nopUnmatched 0xF1FF,
    .nopUnmatched 0xF175, .nopUnmatched 0xFFFF] := by decide
/-- The alternative reading of D1, D4, D9 (R7, `low_nibble`). -/
theorem test_decode_lowNibble : decodeWith .lowNibble 0x0000 = .cls ∧ decodeWith .lowNibble 0x00FE = .ret ∧
    decodeWith .lowNibble 0xE101 = .sknp 1 ∧ decodeAmbiguous 0xE101 = true ∧ decodeAmbiguous 0x00E0 = false := by decide
theorem test_decodeBytes : decodeBytes [0x6A, 0x2F, 0x11] = .ok (.ldImm 10 0x2F, [0x11]) ∧
    decodeBytes [0x6A] = .error (.truncated 1) ∧ decodeBytes [] = .error (.truncated 0) := by decide
theorem test_decodeTableWord : decodeTableWord 16 0x512B = some (.seReg 1 2) := by decide

/-! ## Control transfer -/

theorem test_jp_T3 : after 0x1FFF id (fun t => t.pc) = some 0x0FFF := by decide
theorem test_call_T5 : after 0x2300 (deep 15) (fun t => (t.pc, t.sp.val, t.stack[15])) =
    some (0x0300, 16, 0x0202) := by decide
theorem test_call_T6 : faultOf (step (start 0x2300 (deep 16))) = some .stackOverflow := by decide
theorem test_ret_T8 : faultOf (step (start 0x00EE id)) = some .stackUnderflow := by decide
theorem test_ret_T9 : after 0x0AEE (stacked [0x0204, 0x0345]) (fun t => (t.pc, t.sp.val)) = some (0x0345, 1) := by decide
theorem test_seImm_T10 : after 0x332A (regs [(3, 0x2A)]) (fun t => t.pc) = some 0x0204 := by decide
theorem test_seImm_T11 : after 0x332A (regs [(3, 0x2B)]) (fun t => t.pc) = some 0x0202 := by decide
theorem test_sneImm_T12 : after 0x432A (regs [(3, 0x2A)]) (fun t => t.pc) = some 0x0202 := by decide
theorem test_sneImm_T13 : after 0x4F00 (regs [(15, 0x01)]) (fun t => t.pc) = some 0x0204 := by decide
theorem test_seReg_T15 : after 0x512B (regs [(1, 7), (2, 7)]) (fun t => t.pc) = some 0x0204 := by decide
theorem test_seReg_T16 : after 0x5120 (regs [(1, 7), (2, 8)]) (fun t => t.pc) = some 0x0202 := by decide
theorem test_sneReg_T18 : after 0x9120 (regs [(1, 7), (2, 8)]) (fun t => t.pc) = some 0x0204 := by decide
theorem test_sneReg_T19 : after 0x912F (regs [(1, 7), (2, 7)]) (fun t => t.pc) = some 0x0202 := by decide
theorem test_jpV0_T21 : after 0xBFFF (regs [(0, 0xFF)]) (fun t => t.pc) = some 0x10FE := by decide
theorem test_skip_T22 : after 0x3000 (State.setPc 0x0FFE) (fun t => t.pc) = some 0x1002 := by decide

/-! ## Load, arithmetic, logic, shift, random -/

theorem test_ldImm_A2 : after 0x6FFF id (fun t => t.reg 15) = some 0xFF := by decide
theorem test_addImm_A3 : after 0x7105 (regs [(1, 0xFE)]) (fun t => (t.reg 1, t.reg 15)) = some (3, 0) := by decide
theorem test_ldReg_A6 : after 0x8120 (regs [(2, 0x99)]) (fun t => (t.reg 1, t.reg 2)) = some (0x99, 0x99) := by decide
theorem test_or_A7 : after 0x8121 (regs [(1, 0xF0), (2, 0x0F), (15, 1)]) (fun t => (t.reg 1, t.reg 15)) = some (0xFF, 1) := by
  decide
theorem test_and_A8 : after 0x8122 (regs [(1, 0xF3), (2, 0x3C), (15, 1)]) (fun t => (t.reg 1, t.reg 15)) = some (0x30, 1) := by
  decide
theorem test_xor_A9 : after 0x8123 (regs [(1, 0xFF), (2, 0x0F), (15, 1)]) (fun t => (t.reg 1, t.reg 15)) = some (0xF0, 1) := by
  decide
theorem test_addReg_A12 : after 0x8124 (regs [(1, 0xFE), (2, 1), (15, 1)]) (fun t => (t.reg 1, t.reg 15)) =
    some (0xFF, 0) := by decide
theorem test_addReg_A15 : after 0x8F14 (regs [(15, 0xF0), (1, 0x20)]) (fun t => t.reg 15) = some 1 := by decide
theorem test_sub_A17 : after 0x8125 (regs [(1, 5), (2, 7), (15, 1)]) (fun t => (t.reg 1, t.reg 15)) = some (0xFE, 0) := by
  decide
theorem test_sub_A19 : after 0x8125 (regs [(1, 7), (2, 7), (15, 1)]) (fun t => (t.reg 1, t.reg 15)) = some (0, 0) := by decide
theorem test_subn_A21 : after 0x8127 (regs [(1, 5), (2, 7)]) (fun t => (t.reg 1, t.reg 15)) = some (2, 1) := by decide
theorem test_subn_A22 : after 0x8127 (regs [(1, 7), (2, 5), (15, 1)]) (fun t => (t.reg 1, t.reg 15)) = some (0xFE, 0) := by
  decide
theorem test_shr_A25 : after 0x8126 (regs [(1, 0x80), (2, 0xFF), (15, 1)]) (fun t => (t.reg 1, t.reg 15)) =
    some (0x40, 0) := by decide
theorem test_shr_A27 : after 0x8F06 (regs [(15, 3)]) (fun t => t.reg 15) = some 1 := by decide
theorem test_shl_A29 : after 0x812E (regs [(1, 0x7F), (2, 0xFF), (15, 1)]) (fun t => (t.reg 1, t.reg 15)) =
    some (0xFE, 0) := by decide
theorem test_shl_A30 : after 0x810E (regs [(1, 0x80)]) (fun t => (t.reg 1, t.reg 15)) = some (0, 1) := by decide
/-- The random byte is free, so only the masked-out bits and the count of draws can be tested (vectors A32, A33). -/
theorem test_rnd_A33 : after 0xC300 (regs [(3, 0x55)]) (fun t => (t.pc, t.draws)) = some (0x0202, 1) := by decide
/-- The alternative order of the two writes on vectors A15 and A20 (`result_last`). -/
theorem test_resultLast_A15_A20 :
    (writeResultAndFlag .resultLast regF (0xF0 + 0x20) (carryFlag 0xF0 0x20) State.reset).reg regF = 0x10 ∧
    (writeResultAndFlag .resultLast regF (0x09 - 0x03) (aboveFlag 0x09 0x03) State.reset).reg regF = 0x06 := by decide
theorem test_nop_A35 : after 0x8008 (fun s => (regs [(0, 0x12)] s).setDt 3) (fun t => (t.pc, t.reg 0, t.DT)) =
    some (0x0202, 0x12, 2) := by decide

/-! ## Index register and memory -/

theorem test_ldI_X2 : after 0xAFFF id (fun t => t.I) = some 0x0FFF := by decide
theorem test_addI_X4 : after 0xF21E (fun s => (regs [(2, 1), (15, 1)] s).setI 0x0FFF) (fun t => (t.I, t.reg 15)) =
    some (0x1000, 1) := by decide
theorem test_addI_X5 : after 0xF21E (fun s => (regs [(2, 2)] s).setI 0xFFFF) (fun t => t.I) = some 1 := by decide
theorem test_ldF_X6 : after 0xF429 (regs [(4, 0x0A)]) (fun t => t.I) = some 0x0082 := by decide
theorem test_ldF_X9 : after 0xF429 (regs [(4, 0xFF)]) (fun t => t.I) = some 0x054B := by decide
theorem test_ldB_X10 : after 0xF333 (fun s => (regs [(3, 157)] s).setI 0x0300)
    (fun t => (Memory.read t.mem 0x300, Memory.read t.mem 0x301, Memory.read t.mem 0x302, t.I)) =
    some (1, 5, 7, 0x0300) := by decide
theorem test_ldB_X14 : faultOf (step (start 0xF333 (fun s => (regs [(3, 9)] s).setI 0x0FFE))) = some (.memFault 0x1000) := by
  decide
theorem test_stRegs_X15 : after 0xF255 (fun s => (regs [(0, 0x11), (1, 0x22), (2, 0x33), (3, 0x44)] s).setI 0x0300)
    (fun t => (Memory.read t.mem 0x300, Memory.read t.mem 0x302, Memory.read t.mem 0x303, t.I)) =
    some (0x11, 0x33, 0, 0x0300) := by decide
theorem test_stRegs_X18 : faultOf (step (start 0xFF55 (State.setI 0x0FF1))) = some (.memFault 0x1000) := by decide
theorem test_ldRegs_X19 : after 0xF165 (fun s => (put 0x300 [0xAA, 0xBB, 0xCC] (regs [(2, 0x77)] s)).setI 0x0300)
    (fun t => (t.reg 0, t.reg 1, t.reg 2)) = some (0xAA, 0xBB, 0x77) := by decide
theorem test_ldRegs_X20 : faultOf (step (start 0xF165 (State.setI 0x0FFF))) = some (.memFault 0x1000) := by decide
/-- A store over its own word is seen by the next fetch, not by this one (R127, vector X22). -/
theorem test_selfModify_X22 : after 0xF155 (fun s => (regs [(0, 0x12)] s).setI 0x0200) nextInstr =
    some (some (.nopUnmatched 0x0000)) := by decide

/-! ## Display -/

theorem test_drw_G1 : after 0xD005 (State.setI 0x0050) (fun t => (litIn 6 t.fb, t.reg 15)) =
    some ([(0, 0), (1, 0), (2, 0), (3, 0), (0, 1), (3, 1), (0, 2), (3, 2), (0, 3), (3, 3), (0, 4), (1, 4), (2, 4), (3, 4)],
      0) := by decide
theorem test_drw_G3 : after 0xD001 (fun s => (lit [(7, 0)] (put 0x300 [0xFF] s)).setI 0x0300)
    (fun t => (litIn 2 t.fb, t.reg 15)) = some ([(0, 0), (1, 0), (2, 0), (3, 0), (4, 0), (5, 0), (6, 0)], 1) := by decide
theorem test_drw_G4 : after 0xD000 (fun s => (regs [(15, 1)] s).setI 0x0FFF) (fun t => t.reg 15) = some 0 := by decide
theorem test_drw_G8 : faultOf (step (start 0xD011 (fun s => (put 0x300 [0xFF] (regs [(0, 0x39)] s)).setI 0x0300))) =
    some (.fbFault 64 0) := by decide
theorem test_drw_G13 : faultOf (step (start 0xD002 (State.setI 0x0FFF))) = some (.memFault 0x1000) := by decide
theorem test_drw_G18 : after 0xDF15 (fun s => (regs [(15, 0x0A), (1, 2)] s).setI 0x0050)
    (fun t => (fbCell t.fb 2 10, fbCell t.fb 3 11, fbCell t.fb 3 13, t.reg 15)) = some (true, false, true, 0) := by decide
/-- The alternative edge policy on vectors G14 and G15 (`row_major`). -/
theorem test_rowMajor_G14_G15 :
    (drawPixel .rowMajor 64 0 ⟨darkFramebuffer, false⟩).map (fun d => fbCell d.fb 1 0) = .ok true ∧
    drawPixel .rowMajor 64 31 ⟨darkFramebuffer, false⟩ = .error (.fbFault 64 31) := by decide
theorem test_cls_G17 : after 0x07E0 (lit [(0, 0)]) (fun t => fbCell t.fb 0 0) = some false := by decide

/-! ## Keypad and timers -/

theorem test_skp_K5 : after 0xE29E (fun s => press [2] (regs [(2, 5)] s)) (fun t => t.pc) = some 0x0202 := by decide
theorem test_skp_K6 : faultOf (step (start 0xE29E (fun s => press (List.range 16) (regs [(2, 0x10)] s)))) =
    some (.keyIndexFault 0x10) := by decide
theorem test_sknp_K3 : after 0xE2A1 (regs [(2, 5)]) (fun t => t.pc) = some 0x0204 := by decide
theorem test_sknp_K4 : after 0xE2A1 (fun s => press [5] (regs [(2, 5)] s)) (fun t => t.pc) = some 0x0202 := by decide
theorem test_ldVxK_K9 : after 0xF40A (press [9, 3]) (fun t => (t.pc, t.reg 4)) = some (0x0202, 3) := by decide
theorem test_ldVxK_K11 : after 0xF40A (fun s => (s.setDt 5).setSt 1) (fun t => (t.pc, t.DT, t.ST)) =
    some (0x0200, 4, 0) := by decide
theorem test_ldVxDt_K12 : after 0xF307 (State.setDt 0x10) (fun t => (t.reg 3, t.DT)) = some (0x10, 0x0F) := by decide
theorem test_ldDtVx_K16 : after 0xF315 (State.setDt 9) (fun t => t.DT) = some 0 := by decide
theorem test_ldDtVx_K15 : after 0xF315 (regs [(3, 0x3C)]) (fun t => t.DT) = some 0x3B := by decide
theorem test_ldStVx_K18 : after 0xF318 (regs [(3, 2)]) (fun t => (t.ST, soundOn t)) = some (1, true) := by decide
theorem test_tick_K20 : after 0x8008 (fun s => (s.setDt 1).setSt 0xFF) (fun t => (t.DT, t.ST)) = some (0, 0xFE) := by decide

/-! ## Fetch, host -/

theorem test_fetch_D14 : after 0x6001 (State.setPc 0x0301) (fun t => (t.pc, t.reg 0)) = some (0x0303, 1) := by decide
theorem test_fetch_D16 : faultOf (step (State.reset.setPc 0x10FE)) = some (.memFault 0x10FE) := by decide
theorem test_fetch_D17 : after 0x6A01 (State.setPc 0x0FFE) (fun t => (t.pc, t.reg 10)) = some (0x1000, 1) := by decide
/-- A machine after vector T6 stays as it is (spec 95_test_vectors.md section 8). -/
theorem test_faulted_stays : (match step (takeFault .stackOverflow State.reset) with
    | .next t => t.faulted
    | .fault _ => none
    | .refused _ => none) = some .stackOverflow := by rfl
theorem test_finished_P1 : finished (start 0x1200 id) = true ∧ finished (start 0x1202 id) = false := by decide
theorem test_reset_font : Memory.read State.reset.mem 0x50 = 0xF0 ∧ Memory.read State.reset.mem 0x9F = 0x80 ∧
    Memory.read State.reset.mem 0xA0 = 0 := by decide

/-! ## Witnesses: the hypotheses of each obligation are met, at the edges of their ranges -/

/-- The two bytes at pc. -/
def bytesAtPc (s : State) : List Byte := [Memory.read s.mem s.pc.toNat, Memory.read s.mem (s.pc.toNat + 1)]

/-- A jump at the last address that can be fetched from completes; a RET on an empty call stack faults. -/
theorem witness_StepRunsDecodedInstruction :
    (∃ s : State, s.faulted = none ∧ s.pc.toNat = 4094 ∧ decodeBytes (bytesAtPc s) = .ok (.jp 0x234, []) ∧
      ∃ u, exec (.jp 0x234) { s with pc := s.pc + 2 } = .next u) ∧
    (∃ s : State, s.faulted = none ∧ s.pc.toNat ≤ 4094 ∧ decodeBytes (bytesAtPc s) = .ok (.ret, []) ∧
      exec .ret { s with pc := s.pc + 2 } = .fault .stackUnderflow) :=
  ⟨⟨start 0x1234 (State.setPc 0x0FFE), by decide, by decide, by decide, next_of_isNext _ (by decide)⟩,
   ⟨start 0x00EE id, by decide, by decide, by decide, fault_of_faultOf _ _ (by decide)⟩⟩

theorem witness_FetchAboveMemoryFaults :
    (∃ s : State, s.faulted = none ∧ s.pc.toNat = 4095) ∧ (∃ s : State, s.faulted = none ∧ s.pc.toNat = 4096) :=
  ⟨⟨State.reset.setPc 0x0FFF, rfl, rfl⟩, ⟨State.reset.setPc 0x1000, rfl, rfl⟩⟩

theorem witness_FaultedMachineStays : ∃ s : State, s.faulted ≠ none := ⟨takeFault .stackOverflow State.reset, nofun⟩

/-- A no-operation, and a load of each timer. -/
theorem witness_TimersTickOncePerCycle :
    (∃ t, step (start 0x8008 (State.setDt 1)) = .next t) ∧ (∃ t, step (start 0xF315 (State.setDt 1)) = .next t) ∧
    (∃ t, step (start 0xF318 (State.setSt 1)) = .next t) :=
  ⟨next_of_isNext _ (by decide), next_of_isNext _ (by decide), next_of_isNext _ (by decide)⟩

theorem witness_ProgramCounterAfterEveryInstruction :
    (nextInstr (start 0x00EE (deep 1)) = some .ret ∧ ∃ t, step (start 0x00EE (deep 1)) = .next t) ∧
    (nextInstr (start 0x2300 (deep 15)) = some (.call 0x300) ∧ ∃ t, step (start 0x2300 (deep 15)) = .next t) ∧
    (nextInstr (start 0xE09E (press [0])) = some (.skp 0) ∧ ∃ t, step (start 0xE09E (press [0])) = .next t) ∧
    (nextInstr (start 0xF40A id) = some (.ldVxK 4) ∧ ∃ t, step (start 0xF40A id) = .next t) :=
  ⟨⟨by decide, next_of_isNext _ (by decide)⟩, ⟨by decide, next_of_isNext _ (by decide)⟩,
   ⟨by decide, next_of_isNext _ (by decide)⟩, ⟨by decide, next_of_isNext _ (by decide)⟩⟩

theorem witness_JumpToSelfOnlyRunsTimers : finished (start 0x1FFE (State.setPc 0x0FFE)) = true := by decide

/-- One Cycle of a no-operation with the delay timer at 1. -/
theorem witness_DelayTimerCountsCycles : ∃ s t : State, s.faulted = none ∧ s.DT = 1 ∧ cycles 1 s = .next t ∧
    ∀ j < 1, ∀ u : State, cycles j s = .next u → ∀ x, nextInstr u ≠ some (.ldDtVx x) := by
  obtain ⟨t, ht⟩ := next_of_isNext (cycles 1 (start 0x8008 (State.setDt 1))) (by decide)
  refine ⟨start 0x8008 (State.setDt 1), t, by decide, by decide, ht, ?_⟩
  intro j hj u hu x hx
  obtain rfl : j = 0 := Nat.lt_one_iff.mp hj
  obtain rfl : start 0x8008 (State.setDt 1) = u := Host.Outcome.next.inj hu
  rw [show nextInstr (start 0x8008 (State.setDt 1)) = some (.nopUnmatched 0x8008) by decide] at hx
  cases hx

theorem witness_DecodeOfEncode : Instr.wellFormed (.drw 15 15 15) = true ∧ Instr.wellFormed (.nopUnmatched 0xFFFF) = true := by
  decide

/-- A store to the last byte of memory. -/
theorem witness_StepKeepsMemoryCanonical : Memory.wf (start 0xF055 (State.setI 0x0FFF)).mem ∧
    ∃ t, step (start 0xF055 (State.setI 0x0FFF)) = .next t := ⟨by decide, next_of_isNext _ (by decide)⟩

/-- A skip at the last address that can be fetched from. -/
theorem witness_StepKeepsProgramCounterReach : pcReach (start 0x3000 (State.setPc 0x0FFE)) ∧
    ∃ t, step (start 0x3000 (State.setPc 0x0FFE)) = .next t :=
  ⟨⟨by decide, by simp [start, State.withFetchWord, placeAtPc, State.setPc, State.reset]; split <;> simp [State.setMem]⟩,
   next_of_isNext _ (by decide)⟩

theorem good_firstSession : goodState (firstSession State.reset.keys).core :=
  ⟨by decide, fun _ => by simp [pcReach, firstSession, State.setKeys, State.reset]⟩

theorem witness_HostOperationsKeepGoodState : goodState (firstSession State.reset.keys).core ∧
    (∃ h, hostOp .reset (firstSession State.reset.keys) = .ok (h, .nothing)) ∧
    (∃ h, hostOp (.loadRom [0x12, 0x00]) (firstSession State.reset.keys) = .ok (h, .nothing)) ∧
    (∃ h, hostOp .cycle ⟨.loaded, (firstSession State.reset.keys).core⟩ = .ok (h, .nothing)) :=
  ⟨good_firstSession, ⟨_, rfl⟩, ⟨_, rfl⟩, ⟨_, rfl⟩⟩

/-- The longest image and one byte more. -/
theorem witness_RomLoadPlacesBytes :
    ∃ (bytes longer : List Byte) (h : Session), h.phase = .constructed ∧ Memory.wf h.core.mem ∧ bytes.length = 3584 ∧
      longer.length = 3585 :=
  ⟨List.replicate 3584 0, List.replicate 3585 0, firstSession State.reset.keys, rfl, by decide, List.length_replicate, List.length_replicate⟩

theorem witness_FaultIsLatchedUntilReset :
    ∃ (h : Session) (f : Fault), h.phase ≠ .constructed ∧ step h.core = .fault f :=
  ⟨⟨.loaded, State.reset.setPc 0x0FFF⟩, .memFault 4096, nofun, fault_of_faultOf _ _ (by decide)⟩

theorem witness_HostReadsAndKeysTouchNothingElse :
    (∃ h : Session, h.phase = .constructed) ∧ (∃ h : Session, h.phase ≠ .constructed) :=
  ⟨⟨⟨.constructed, State.reset⟩, rfl⟩, ⟨⟨.running, State.reset⟩, nofun⟩⟩

theorem witness_MemoryReadAfterWrite : Memory.wf [] ∧ (0 : Nat) ≤ 4095 ∧ (4095 : Nat) ≠ 0 := by decide

theorem witness_StoredBytesAreFetched : Memory.wf State.reset.mem ∧
    (∃ t, exec (.stRegs 15) (State.reset.setI 0x0FF0) = .next t) ∧
    (14 : Nibble).toNat + 1 = (15 : Nibble).toNat ∧ (15 : Nibble).toNat ≤ (15 : Nibble).toNat :=
  ⟨by decide, next_of_isNext _ (by decide), by decide, by decide⟩

/-- Words that carry the fixed bits of their rows, with every free bit set. -/
theorem witness_decodesAs : 0x1FFF#16 &&& 0xF000#16 = 0x1000#16 ∧ 0x812F#16 &&& 0xF00F#16 = 0x800F#16 ∧
    0x8FF3#16 &&& 0xF00F#16 = 0x8003#16 ∧ 0x0FE0#16 &&& 0xF0FF#16 = 0x00E0#16 ∧
    0xFF18#16 &&& 0xF0FF#16 = 0xF018#16 := by decide

theorem witness_CallPushesReturnAddress : (∃ s : State, s.sp.val = 15) ∧ (∃ s : State, s.sp.val = 16) :=
  ⟨⟨deep 15 State.reset, rfl⟩, ⟨deep 16 State.reset, rfl⟩⟩

theorem witness_ReturnPopsProgramCounter : (∃ s : State, s.sp.val = 1) ∧ (∃ s : State, s.sp.val = 0) :=
  ⟨⟨deep 1 State.reset, rfl⟩, ⟨State.reset, rfl⟩⟩

theorem witness_CallThenReturnRestoresPc :
    ∃ s u v : State, exec (.call 0x300) s = .next u ∧ v.stack = u.stack ∧ v.sp = u.sp := by
  obtain ⟨u, hu⟩ := next_of_isNext (exec (.call 0x300) (deep 15 State.reset)) (by decide)
  exact ⟨_, u, u, hu, rfl, rfl⟩

/-- The flag-writing instructions with a destination other than VF. -/
theorem witness_flagDestinations : (0x1 : Nibble) ≠ 0xF ∧ (0xE : Nibble) ≠ 0xF := by decide

theorem witness_BcdStoresDigits : ∃ s : State, Memory.wf s.mem ∧ s.I.toNat + 2 = 4095 :=
  ⟨State.reset.setI 0x0FFD, by decide, by decide⟩

theorem witness_StoreRegistersWritesEach : ∃ s : State, Memory.wf s.mem ∧ s.I.toNat + (15 : Nibble).toNat = 4095 :=
  ⟨State.reset.setI 0x0FF0, by decide, by decide⟩

theorem witness_LoadRegistersReadsEach : ∃ s : State, s.I.toNat + (0 : Nibble).toNat = 4095 :=
  ⟨State.reset.setI 0x0FFF, by decide⟩

theorem witness_MemoryInstructionsFaultAboveMemory :
    (∃ s : State, s.I.toNat ≤ 4095 ∧ s.I.toNat + 2 = 4096) ∧ (∃ s : State, s.I.toNat = 4096) ∧
    (∃ s : State, s.I.toNat + (1 : Nibble).toNat = 4096) :=
  ⟨⟨State.reset.setI 0x0FFE, by decide, by decide⟩, ⟨State.reset.setI 0x1000, by decide⟩, ⟨State.reset.setI 0x0FFF, by decide⟩⟩

theorem witness_StoreThenLoadRegisters :
    (∃ u, exec (.ldB 3) (State.reset.setI 0x0FFD) = .next u) ∧ (∃ u, exec (.ldRegs 15) (State.reset.setI 0x0FF0) = .next u) ∧
    (∃ u v : State, exec (.stRegs 15) (State.reset.setI 0x0FF0) = .next u ∧ Memory.wf (State.reset.setI 0x0FF0).mem ∧
      v.mem = u.mem ∧ v.I = u.I) := by
  obtain ⟨u, hu⟩ := next_of_isNext (exec (.stRegs 15) (State.reset.setI 0x0FF0)) (by decide)
  exact ⟨next_of_isNext _ (by decide), next_of_isNext _ (by decide), u, u, hu, by decide, rfl, rfl⟩

/-- The corner of vector G7: a full row at columns 56 to 63 of row 31. -/
def cornerState : State := (put 0x300 [0xFF] (regs [(0, 0x38), (1, 0x1F)] State.reset)).setI 0x0300

theorem witness_DrawInvertsTouchedCells : (∀ row < (1 : Nibble).toNat, rowFits cornerState 0 1 row) ∧
    touches cornerState 0 1 1 31 63 ∧ ¬touches cornerState 0 1 1 30 63 ∧
    (∃ cy cx, touches (lit [(63, 31)] cornerState) 0 1 1 cy cx ∧ fbCell (lit [(63, 31)] cornerState).fb cy cx = true) := by
  unfold touches rowFits bitSet
  refine ⟨by decide, by decide, by decide, 31, 63, by decide, by decide⟩

/-- The first row below row 31 (vector G10), and the first row above address 4095 (vector G13). -/
theorem witness_DrawFaultsInOrder :
    (∃ s : State, (∀ r < 1, rowFits s 0 1 r) ∧ s.I.toNat + 1 ≤ 4095 ∧ bitSet s 1 0 ∧ 31 < yPos s 1 + 1) ∧
    (∃ s : State, (∀ r < 0, rowFits s 0 1 r) ∧ bitSet s 0 7 ∧ 63 < xPos s 0 + 7 ∧
      ∀ c < 7, bitSet s 0 c → xPos s 0 + c ≤ 63 ∧ yPos s 1 + 0 ≤ 31) ∧
    (∃ s : State, (∀ r < 1, rowFits s 0 0 r) ∧ 4095 < s.I.toNat + 1) := by
  unfold rowFits bitSet
  exact ⟨⟨(put 0x300 [0x80, 0x80] (regs [(1, 0x1F)] State.reset)).setI 0x0300, by decide, by decide, by decide, by decide⟩,
    ⟨(put 0x300 [0xFF] (regs [(0, 0x39)] State.reset)).setI 0x0300, by decide, by decide, by decide, by decide⟩,
    ⟨State.reset.setI 0x0FFF, by decide, by decide⟩⟩

theorem witness_DrawTwiceRestoresFramebuffer : (∃ u, exec (.drw 0 1 1) cornerState = .next u) ∧
    (touches cornerState 0 1 1 31 63 ∧ fbCell cornerState.fb 31 63 = false) ∧
    (∃ u, exec (.drw 0 0 1) ((put 0x300 [0x80] (lit [(0, 0)] State.reset)).setI 0x0300) = .next u) ∧
    fbCell (lit [(0, 0)] State.reset).fb 0 0 = true := by
  unfold touches bitSet
  exact ⟨next_of_isNext _ (by decide), ⟨by decide, by decide⟩, next_of_isNext _ (by decide), by decide⟩

theorem witness_KeySkipsTestTheKey : (∃ s : State, (s.reg 2).toNat = 15) ∧ (∃ s : State, (s.reg 2).toNat = 16) :=
  ⟨⟨regs [(2, 15)] State.reset, by decide⟩, ⟨regs [(2, 16)] State.reset, by decide⟩⟩

theorem witness_WaitForKeyTakesTheLeastKey :
    (∃ s : State, s.keys[15] = true ∧ ∀ j, (hj : j < 15) → s.keys[j] = false) ∧
    (∃ s : State, s.keys[0] = true) ∧ (∃ s : State, ∀ k, (hk : k < 16) → s.keys[k] = false) :=
  ⟨⟨press [15] State.reset, by decide, by decide⟩, ⟨press [0] State.reset, by decide⟩, ⟨State.reset, by decide⟩⟩

theorem witness_UnmatchedWordDoesNothing : ∃ s : State, s.faulted = none ∧ fetch16 s.mem s.pc.toNat = .ok 0x8008 ∧
    opcodeTable.filter (rowMatches 0x8008) = [] := ⟨start 0x8008 id, by decide, by decide, by decide⟩

theorem witness_FaultsOnlyInTheListedCases :
    exec (.call 0) (deep 16 State.reset) = .fault .stackOverflow ∧ exec .ret State.reset = .fault .stackUnderflow ∧
    exec (.skp 2) (regs [(2, 16)] State.reset) = .fault (.keyIndexFault 16) ∧
    exec (.ldB 0) (State.reset.setI 0x0FFE) = .fault (.memFault 4096) ∧
    exec (.stRegs 1) (State.reset.setI 0x0FFF) = .fault (.memFault 4096) ∧
    exec (.drw 0 0 1) (State.reset.setI 0x1000) = .fault (.memFault 4096) ∧
    exec (.drw 0 1 1) ((put 0x300 [0xFF] (regs [(0, 0x39)] State.reset)).setI 0x0300) = .fault (.fbFault 64 0) :=
  ⟨fault_of_faultOf _ _ (by decide), fault_of_faultOf _ _ (by decide), fault_of_faultOf _ _ (by decide),
   fault_of_faultOf _ _ (by decide), fault_of_faultOf _ _ (by decide), fault_of_faultOf _ _ (by decide),
   fault_of_faultOf _ _ (by decide)⟩

/-- An instruction outside every list of writers and of input readers completes, and one inside each changes its piece. -/
theorem witness_frames : (∃ t, exec (.jp 0x200) State.reset = .next t) ∧ (∃ t, exec (.ldB 0) (State.reset.setI 0x0300) = .next t) ∧
    (∃ t, exec (.addReg 1 2) State.reset = .next t) := ⟨⟨_, rfl⟩, next_of_isNext _ (by decide), ⟨_, rfl⟩⟩

theorem witness_RegistersChangeOnlyAsNamed :
    ∃ (t : State) (z : Nibble), exec (.ldRegs 0) (put 0x300 [0x5A] (State.reset.setI 0x0300)) = .next t ∧
      t.reg z ≠ (put 0x300 [0x5A] (State.reset.setI 0x0300)).reg z := ⟨_, 0, rfl, by decide⟩

theorem witness_InputsReachOnlyTheirInstructions :
    (∃ t, exec (.ldVxDt 1) State.reset = .next t) ∧ exec .ret State.reset = .fault .stackUnderflow :=
  ⟨⟨_, rfl⟩, fault_of_faultOf _ _ (by decide)⟩

end Sys2Proof.Tests
end

section
/-! PROOFS. Control transfer (spec 41_control_transfer.md): the jumps and the comparison skips. What an instruction of these
decodes from, what it leaves in pc, and that pc is all it changes. -/

namespace Sys2Proof.Claims

open Sys2Proof.Machine

/-! ## Decoding by family (R94, R96) -/

theorem decodeWord_family1 (op : Word) (h : opFamily op = 0x1) : decodeWord op = .jp (opAddr op) := by
  simp [decodeWord, decodeWith, h]

theorem decodeWord_family3 (op : Word) (h : opFamily op = 0x3) : decodeWord op = .seImm (opX op) (opKk op) := by
  simp [decodeWord, decodeWith, h]

theorem decodeWord_family4 (op : Word) (h : opFamily op = 0x4) : decodeWord op = .sneImm (opX op) (opKk op) := by
  simp [decodeWord, decodeWith, h]

theorem decodeWord_family5 (op : Word) (h : opFamily op = 0x5) : decodeWord op = .seReg (opX op) (opY op) := by
  simp [decodeWord, decodeWith, h]

theorem decodeWord_family9 (op : Word) (h : opFamily op = 0x9) : decodeWord op = .sneReg (opX op) (opY op) := by
  simp [decodeWord, decodeWith, h]

theorem decodeWord_familyB (op : Word) (h : opFamily op = 0xB) : decodeWord op = .jpV0 (opAddr op) := by
  simp [decodeWord, decodeWith, h]

/-- A row whose mask is the family alone decodes as every word of its family does. -/
theorem decodesAs_of_family {pattern : Word} {i : Word → Instr} (f : Nibble) (hf : opFamily pattern = f)
    (h : ∀ op, opFamily op = f → decodeWord op = i op) : decodesAs 0xF000 pattern i := by
  intro op hop
  obtain ⟨-, hfam⟩ := (mask_family op pattern).mp hop
  have hsame : opFamily op = opFamily pattern := by
    apply BitVec.eq_of_toNat_eq
    rw [hfam, toNat_opFamily]
    omega
  exact h op (hsame.trans hf)

/-! ## Jump targets (R141, R147) -/

theorem toNat_zextAddr (addr : Addr12) : (zextAddr addr).toNat = addr.toNat :=
  BitVec.toNat_setWidth_of_le (by decide)

theorem toNat_zextByte (v : Byte) : (zextByte v).toNat = v.toNat :=
  BitVec.toNat_setWidth_of_le (by decide)

/-- A byte and an address together stay below 2 ^ 16, so their sum as a word does not wrap. -/
theorem toNat_zextByte_add_zextAddr (v : Byte) (addr : Addr12) :
    (zextByte v + zextAddr addr).toNat = v.toNat + addr.toNat := by
  rw [BitVec.toNat_add, toNat_zextByte, toNat_zextAddr]
  omega

/-! ## What a jump and a skip change -/

theorem onlyPc_setPc (s : State) (target : Word) : onlyPc s (s.setPc target) := ⟨fun _ => rfl, rfl⟩

theorem onlyPc_skipIf (s : State) (cond : Bool) : onlyPc s (s.skipIf cond) := by
  rw [skipIf_eq]
  exact onlyPc_setPc s _

theorem toNat_skipIf_pc (s : State) (cond : Bool) :
    (s.skipIf cond).pc.toNat = if cond then (s.pc.toNat + 2) % 65536 else s.pc.toNat := by
  cases cond
  · rfl
  · exact BitVec.toNat_add s.pc 2

/-- The skip of SE: taken when the two bytes are equal as numbers (R143, R145). -/
theorem toNat_skipIf_beq_pc (s : State) (a b : Byte) :
    (s.skipIf (a == b)).pc.toNat = if a.toNat = b.toNat then (s.pc.toNat + 2) % 65536 else s.pc.toNat := by
  rw [toNat_skipIf_pc]
  simp [BitVec.toNat_inj]

/-- The skip of SNE: not taken when the two bytes are equal as numbers (R144, R146). -/
theorem toNat_skipIf_bne_pc (s : State) (a b : Byte) :
    (s.skipIf (a != b)).pc.toNat = if a.toNat = b.toNat then s.pc.toNat else (s.pc.toNat + 2) % 65536 := by
  rw [toNat_skipIf_pc]
  simp [BitVec.toNat_inj]

/-! ## The obligations -/

/-- Settles O22: both jumps set pc and nothing else, and the sum of JP V0 is too small to wrap. -/
theorem jumpsSetProgramCounter : Obligations.JumpsSetProgramCounter := by
  refine ⟨decodesAs_of_family 0x1 rfl decodeWord_family1, decodesAs_of_family 0xB rfl decodeWord_familyB,
    fun addr s => ⟨?jp, ?jpV0⟩⟩
  case jp => exact ⟨_, rfl, toNat_zextAddr addr, onlyPc_setPc s _⟩
  case jpV0 => exact ⟨_, rfl, toNat_zextByte_add_zextAddr _ addr, onlyPc_setPc s _⟩

/-- Settles O23: each of the four is a skip on the comparison of two bytes, for equality or against it. -/
theorem comparisonsSkip : Obligations.ComparisonsSkip := by
  refine ⟨decodesAs_of_family 0x3 rfl decodeWord_family3, decodesAs_of_family 0x4 rfl decodeWord_family4,
    decodesAs_of_family 0x5 rfl decodeWord_family5, decodesAs_of_family 0x9 rfl decodeWord_family9,
    fun x y kk s => ⟨?seImm, ?sneImm, ?seReg, ?sneReg⟩⟩
  case seImm => exact ⟨_, rfl, onlyPc_skipIf s _, toNat_skipIf_beq_pc s (s.reg x) kk⟩
  case sneImm => exact ⟨_, rfl, onlyPc_skipIf s _, toNat_skipIf_bne_pc s (s.reg x) kk⟩
  case seReg => exact ⟨_, rfl, onlyPc_skipIf s _, toNat_skipIf_beq_pc s (s.reg x) (s.reg y)⟩
  case sneReg => exact ⟨_, rfl, onlyPc_skipIf s _, toNat_skipIf_bne_pc s (s.reg x) (s.reg y)⟩

end Sys2Proof.Claims
end

section
/-! PROOFS. Loads, immediate addition and logic (spec 42_load_and_arithmetic.md): the instructions that write one general
register and no flag. What each decodes from, what it leaves in its destination, and that it changes nothing else. -/

namespace Sys2Proof.Claims

open Sys2Proof.Machine

/-! ## Decoding (R96, R97) -/

theorem decodeWord_family6 (op : Word) (h : opFamily op = 0x6) : decodeWord op = .ldImm (opX op) (opKk op) := by
  simp [decodeWord, decodeWith, h]

theorem decodeWord_family7 (op : Word) (h : opFamily op = 0x7) : decodeWord op = .addImm (opX op) (opKk op) := by
  simp [decodeWord, decodeWith, h]

theorem decodeWord_family8 (op : Word) (h : opFamily op = 0x8) : decodeWord op = decodeFamily8 op := by
  simp [decodeWord, decodeWith, h]

theorem decodeFamily8_nibble0 (op : Word) (h : opN op = 0x0) : decodeFamily8 op = .ldReg (opX op) (opY op) := by
  simp [decodeFamily8, h]

theorem decodeFamily8_nibble1 (op : Word) (h : opN op = 0x1) : decodeFamily8 op = .orReg (opX op) (opY op) := by
  simp [decodeFamily8, h]

theorem decodeFamily8_nibble2 (op : Word) (h : opN op = 0x2) : decodeFamily8 op = .andReg (opX op) (opY op) := by
  simp [decodeFamily8, h]

theorem decodeFamily8_nibble3 (op : Word) (h : opN op = 0x3) : decodeFamily8 op = .xorReg (opX op) (opY op) := by
  simp [decodeFamily8, h]

/-- A row of family 0x8, whose mask compares the family and the low nibble, decodes as family 0x8 does at that nibble. -/
theorem decodesAs_of_family8 {pattern : Word} {i : Word → Instr} (n : Nibble) (hf : opFamily pattern = 0x8)
    (hn : opN pattern = n) (h : ∀ op, opN op = n → decodeFamily8 op = i op) : decodesAs 0xF00F pattern i := by
  intro op hop
  obtain ⟨-, hfam, hnib⟩ := (mask_family_nibble op pattern).mp hop
  have hsameFamily : opFamily op = opFamily pattern := by
    apply BitVec.eq_of_toNat_eq
    rw [hfam, toNat_opFamily]
    omega
  have hsameNibble : opN op = opN pattern := by
    apply BitVec.eq_of_toNat_eq
    rw [hnib, toNat_opN]
  rw [decodeWord_family8 op (hsameFamily.trans hf)]
  exact h op (hsameNibble.trans hn)

/-! ## What the write of one register changes -/

theorem keepsOthers_setReg (x : Nibble) (v : Byte) (s : State) : keepsOthers x s (s.setReg x v) :=
  fun z hz => reg_setReg_ne s x z v hz

theorem onlyRegs_setReg (x : Nibble) (v : Byte) (s : State) : onlyRegs s (s.setReg x v) := ⟨fun _ => rfl, rfl⟩

/-! ## What the destination holds -/

/-- A register written with a sum of bytes holds the sum of their numbers modulo 256 (R161). -/
theorem toNat_reg_setReg_add (x : Nibble) (a b : Byte) (s : State) :
    ((s.setReg x (a + b)).reg x).toNat = (a.toNat + b.toNat) % 256 := by
  rw [reg_setReg_same]
  exact BitVec.toNat_add a b

/-! ## The obligations -/

/-- Settles O27: both loads are the write of one register, with kk or with the value of Vy. -/
theorem loadsSetDestination : Obligations.LoadsSetDestination := by
  refine ⟨decodesAs_of_family 0x6 rfl decodeWord_family6, decodesAs_of_family8 0x0 rfl rfl decodeFamily8_nibble0,
    fun x y kk s => ⟨?ldImm, ?ldReg⟩⟩
  case ldImm => exact ⟨_, rfl, reg_setReg_same s x kk, keepsOthers_setReg x kk s, onlyRegs_setReg x kk s⟩
  case ldReg => exact ⟨_, rfl, reg_setReg_same s x _, keepsOthers_setReg x _ s, onlyRegs_setReg x _ s⟩

/-- Settles O28: the write of one register with a sum of bytes, which wraps at 256; no second write follows it. -/
theorem addImmediateWraps : Obligations.AddImmediateWraps := by
  refine ⟨decodesAs_of_family 0x7 rfl decodeWord_family7, fun x kk s => ?addImm⟩
  case addImm =>
    exact ⟨_, rfl, toNat_reg_setReg_add x (s.reg x) kk s, keepsOthers_setReg x _ s, onlyRegs_setReg x _ s⟩

/-- Settles O29: each of the three is the write of one register, bit by bit from the old values of Vx and Vy. -/
theorem logicActsOnEveryBit : Obligations.LogicActsOnEveryBit := by
  refine ⟨decodesAs_of_family8 0x1 rfl rfl decodeFamily8_nibble1, decodesAs_of_family8 0x2 rfl rfl decodeFamily8_nibble2,
    decodesAs_of_family8 0x3 rfl rfl decodeFamily8_nibble3, fun x y s => ⟨?orReg, ?andReg, ?xorReg⟩⟩
  case orReg =>
    exact ⟨_, rfl, keepsOthers_setReg x _ s, onlyRegs_setReg x _ s,
      fun _ _ => by rw [reg_setReg_same, BitVec.getLsbD_or]⟩
  case andReg =>
    exact ⟨_, rfl, keepsOthers_setReg x _ s, onlyRegs_setReg x _ s,
      fun _ _ => by rw [reg_setReg_same, BitVec.getLsbD_and]⟩
  case xorReg =>
    exact ⟨_, rfl, keepsOthers_setReg x _ s, onlyRegs_setReg x _ s,
      fun _ _ => by rw [reg_setReg_same, BitVec.getLsbD_xor]⟩

end Sys2Proof.Claims
end

section
/-! PROOFS. Index register and memory instructions (spec 43_index_and_memory.md): the loads of I, what a completed memory
instruction leaves of the state, and that a range of registers stored and then loaded comes back. -/

namespace Sys2Proof.Claims

open Sys2Proof.Machine

/-! ## Decoding (R96, R98) -/

theorem decodeWord_familyA (op : Word) (h : opFamily op = 0xA) : decodeWord op = .ldI (opAddr op) := by
  simp [decodeWord, decodeWith, h]

theorem decodeWord_familyF (op : Word) (h : opFamily op = 0xF) : decodeWord op = decodeFamilyF op := by
  simp [decodeWord, decodeWith, h]

theorem decodeFamilyF_byte29 (op : Word) (h : opKk op = 0x29) : decodeFamilyF op = .ldF (opX op) := by
  simp [decodeFamilyF, h]

/-- A row of family 0xF, whose mask compares the family and the low byte, decodes as family 0xF does at that byte. -/
theorem decodesAs_of_familyF {pattern : Word} {i : Word → Instr} (kk : Byte) (hf : opFamily pattern = 0xF)
    (hk : opKk pattern = kk) (h : ∀ op, opKk op = kk → decodeFamilyF op = i op) : decodesAs 0xF0FF pattern i := by
  intro op hop
  obtain ⟨-, hfam, hbyte⟩ := (mask_family_byte op pattern).mp hop
  have hsameFamily : opFamily op = opFamily pattern := by
    apply BitVec.eq_of_toNat_eq
    rw [hfam, toNat_opFamily]
    omega
  have hsameByte : opKk op = opKk pattern := by
    apply BitVec.eq_of_toNat_eq
    rw [hbyte, toNat_opKk]
  rw [decodeWord_familyF op (hsameFamily.trans hf)]
  exact h op (hsameByte.trans hk)

/-! ## The loads of I (R190, R192) -/

theorem onlyIndex_setI (v : Word) (s : State) : onlyIndex s (s.setI v) := ⟨fun _ => rfl, rfl⟩

/-- The glyph address of the largest byte is 0x54B, so the word never wraps. -/
theorem toNat_glyphAddress (v : Byte) : (glyphAddress v).toNat = 0x050 + 5 * v.toNat := by
  have hword : (glyphAddress v).toNat = (0x050 + 5 * (zextByte v).toNat % 65536) % 65536 := rfl
  rw [hword, toNat_zextByte]
  omega

/-! ## What a completed memory instruction has done (R193, R195, R196) -/

theorem exec_ldB_next {x : Nibble} {s u : State} (h : exec (.ldB x) s = .next u) : ∃ m, u = s.setMem m := by
  by_cases hfit : s.I.toNat + 2 ≤ 4095
  · obtain ⟨m, -, hexec⟩ := exec_ldB_inside x s hfit
    exact ⟨m, Host.Outcome.next.inj (h.symm.trans hexec)⟩
  · rw [exec_ldB_outside x s (by omega)] at h
    cases h

theorem exec_stRegs_next {x : Nibble} {s u : State} (h : exec (.stRegs x) s = .next u) :
    s.I.toNat + x.toNat ≤ 4095 ∧ ∃ m, storeBytes s.base (s.regsUpTo x) s.mem = .ok m ∧ u = s.setMem m := by
  by_cases hfit : s.I.toNat + x.toNat ≤ 4095
  · obtain ⟨m, hstore, hexec⟩ := exec_stRegs_inside x s hfit
    exact ⟨hfit, m, hstore, Host.Outcome.next.inj (h.symm.trans hexec)⟩
  · rw [exec_stRegs_outside x s (by omega)] at h
    cases h

theorem exec_ldRegs_next {x : Nibble} {s u : State} (h : exec (.ldRegs x) s = .next u) : ∃ V, u = { s with V := V } := by
  by_cases hfit : s.I.toNat + x.toNat ≤ 4095
  · exact ⟨_, Host.Outcome.next.inj (h.symm.trans (exec_ldRegs_inside x s hfit))⟩
  · rw [exec_ldRegs_outside x s (by omega)] at h
    cases h

/-! ## Registers in memory (R195, R196) -/

/-- Register z of the stored range lies at I + z. -/
theorem read_storeBytes_regsUpTo {x z : Nibble} {s : State} {m : Memory} (hz : z.toNat ≤ x.toNat) (hwf : Memory.wf s.mem)
    (h : storeBytes s.base (s.regsUpTo x) s.mem = .ok m) : Memory.read m (s.base + z.toNat) = s.reg z := by
  obtain ⟨-, -, hstored⟩ := storeBytes_spec _ _ _ _ h
  have hlt : z.toNat < (s.regsUpTo x).length := by rw [regsUpTo_length]; omega
  rw [(hstored hwf).2 z.toNat hlt, regsUpTo_getElem]
  rfl

/-- A load whose range is in memory completes with the byte at I + z in every register z of the range. -/
theorem exec_ldRegs_reads (x : Nibble) (v : State) (h : v.I.toNat + x.toNat ≤ 4095) :
    ∃ t, exec (.ldRegs x) v = .next t ∧
      ∀ z : Nibble, z.toNat ≤ x.toNat → t.reg z = Memory.read v.mem (v.base + z.toNat) := by
  refine ⟨_, exec_ldRegs_inside x v h, fun z hz => ?_⟩
  have hrange : 0 ≤ z.toNat ∧
      z.toNat < 0 + ((List.range (x.toNat + 1)).map fun i => Memory.read v.mem (v.base + i)).length := by
    rw [List.length_map, List.length_range]
    omega
  rw [State.reg, getElem_setRegsFrom, dif_pos hrange]
  simp

/-! ## The obligations -/

/-- Settles O40: no memory instruction writes I, and the load reads its range where the store put it. -/
theorem storeThenLoadRegisters : Obligations.StoreThenLoadRegisters := by
  refine fun x s u => ⟨fun h => ?ldB, fun h => ?ldRegs, fun h => ?stRegs⟩
  case ldB =>
    obtain ⟨m, rfl⟩ := exec_ldB_next h
    rfl
  case ldRegs =>
    obtain ⟨V, rfl⟩ := exec_ldRegs_next h
    rfl
  case stRegs =>
    obtain ⟨hfit, m, hstore, rfl⟩ := exec_stRegs_next h
    refine ⟨rfl, fun hwf v hmem hI => ?_⟩
    have hI : v.I = s.I := hI
    have hmem : v.mem = m := hmem
    obtain ⟨t, hload, hreads⟩ := exec_ldRegs_reads x v (by rw [hI]; exact hfit)
    refine ⟨t, hload, fun z hz => ?_⟩
    calc t.reg z = Memory.read v.mem (v.base + z.toNat) := hreads z hz
      _ = Memory.read m (s.base + z.toNat) := by rw [hmem, State.base, hI, State.base]
      _ = s.reg z := read_storeBytes_regsUpTo hz hwf hstore

/-- Settles O34: both loads set I and nothing else, and the address of a glyph is too small to wrap. -/
theorem indexLoads : Obligations.IndexLoads := by
  refine ⟨decodesAs_of_family 0xA rfl decodeWord_familyA, decodesAs_of_familyF 0x29 rfl rfl decodeFamilyF_byte29,
    fun addr x s => ⟨?ldI, ?ldF⟩⟩
  case ldI => exact ⟨_, rfl, toNat_zextAddr addr, onlyIndex_setI _ s⟩
  case ldF => exact ⟨_, rfl, toNat_glyphAddress (s.reg x), onlyIndex_setI _ s⟩

end Sys2Proof.Claims
end

section
/-! PROOFS. Display (spec 44_display.md): the clear. Which words decode to it, and that it leaves every cell dark and all
other state as it was. -/

namespace Sys2Proof.Claims

open Sys2Proof.Machine

/-! ## Decoding (R96, R99) -/

/-- A word under the mask of the family and the low byte has the pattern's family and the pattern's low byte. -/
theorem fields_of_mask_family_byte {op pattern : Word} (h : op &&& 0xF0FF = pattern) :
    opFamily op = opFamily pattern ∧ opKk op = opKk pattern := by
  obtain ⟨-, hfam, hbyte⟩ := (mask_family_byte op pattern).mp h
  constructor
  · apply BitVec.eq_of_toNat_eq
    rw [hfam, toNat_opFamily]
    omega
  · apply BitVec.eq_of_toNat_eq
    rw [hbyte, toNat_opKk]

/-- The low byte alone selects CLS in family 0x0, by the reading of D3 this machine takes. -/
theorem decodeWord_family0_byteE0 (op : Word) (hf : opFamily op = 0x0) (hk : opKk op = 0xE0) : decodeWord op = .cls := by
  simp [decodeWord, decodeWith, decode0ESelector, decodeFamily0, hf, hk]

/-! ## The dark framebuffer (R211) -/

theorem fbCell_darkFramebuffer (y x : Nat) : fbCell darkFramebuffer y x = false := by
  by_cases hin : y < 32 ∧ x < 64
  · rw [fbCell, dif_pos hin]
    simp [darkFramebuffer]
  · exact dif_neg hin

theorem reset_fb : State.reset.fb = darkFramebuffer := rfl

theorem exec_cls (s : State) : exec .cls s = .next (s.setFb darkFramebuffer) := rfl

/-! ## The obligation -/

/-- Settles O41: the framebuffer after CLS, and the one at reset, is the dark one, and the framebuffer is all CLS writes. -/
theorem clearScreenDarkensEveryCell : Obligations.ClearScreenDarkensEveryCell := by
  refine ⟨fun op hop => ?decode, fun y _ x _ => ?reset, fun s => ⟨s.setFb darkFramebuffer, exec_cls s, ?dark, ?memory, ?frame⟩⟩
  case decode =>
    obtain ⟨hfam, hbyte⟩ := fields_of_mask_family_byte hop
    exact decodeWord_family0_byteE0 op hfam hbyte
  case reset => rw [reset_fb, fbCell_darkFramebuffer]
  case dark => exact fun y _ x _ => fbCell_darkFramebuffer y x
  case memory => exact fun _ => rfl
  case frame => rfl

end Sys2Proof.Claims
end

section
/-! PROOFS. Decoding and encoding (spec 30_encoding.md): what each family of words decodes to, said once; that the decoder
and the opcode table agree on every word; and the two round trips. -/

namespace Sys2Proof.Claims

open Sys2Proof.Machine Sys2Proof.Laws.RowBits

/-! ## The first level of the decoder (R94, R123) -/

theorem decodeWord_family0 (op : Word) (h : opFamily op = 0x0) : decodeWord op = decodeFamily0 .lowByte op := by
  simp [decodeWord, decodeWith, decode0ESelector, h]

theorem decodeWord_family2 (op : Word) (h : opFamily op = 0x2) : decodeWord op = .call (opAddr op) := by
  simp [decodeWord, decodeWith, h]

theorem decodeWord_familyC (op : Word) (h : opFamily op = 0xC) : decodeWord op = .rnd (opX op) (opKk op) := by
  simp [decodeWord, decodeWith, h]

theorem decodeWord_familyD (op : Word) (h : opFamily op = 0xD) : decodeWord op = .drw (opX op) (opY op) (opN op) := by
  simp [decodeWord, decodeWith, h]

theorem decodeWord_familyE (op : Word) (h : opFamily op = 0xE) : decodeWord op = decodeFamilyE .lowByte op := by
  simp [decodeWord, decodeWith, decode0ESelector, h]

/-- The sixteen values of a nibble. -/
theorem nibble_cases : ∀ f : Nibble, f = 0x0 ∨ f = 0x1 ∨ f = 0x2 ∨ f = 0x3 ∨ f = 0x4 ∨ f = 0x5 ∨ f = 0x6 ∨ f = 0x7 ∨
    f = 0x8 ∨ f = 0x9 ∨ f = 0xA ∨ f = 0xB ∨ f = 0xC ∨ f = 0xD ∨ f = 0xE ∨ f = 0xF := by
  decide

/-! ## The decoder and the opcode table (R95, R101, R103) -/

/-- The table and an instruction agree on a word: either the word has exactly one row and the instruction is well formed
and of that row, or it has none and the instruction is the word's no-operation. -/
def FollowsTable (op : Word) (i : Instr) : Prop :=
  (∃ row, opcodeTable.filter (rowMatches op) = [row] ∧ mnemonicOf i = row.mnemonic ∧ i.wellFormed = true) ∨
  (opcodeTable.filter (rowMatches op) = [] ∧ i = .nopUnmatched op)

theorem unmatchedWord_iff (op : Word) : unmatchedWord op = true ↔ opcodeTable.filter (rowMatches op) = [] := by
  simp [unmatchedWord, List.filter_eq_nil_iff]

theorem FollowsTable.wellFormed {op : Word} {i : Instr} (h : FollowsTable op i) : i.wellFormed = true := by
  obtain ⟨-, -, -, hwf⟩ | ⟨hnone, rfl⟩ := h
  · exact hwf
  · exact (unmatchedWord_iff op).mpr hnone

/-- The rows that match a word are those its family, low nibble and low byte select. -/
theorem matchingRows_eq {op : Word} {f n : Nibble} {k : Byte} (hf : opFamily op = f) (hn : opN op = n)
    (hk : opKk op = k) :
    opcodeTable.filter (rowMatches op) = opcodeTable.filter (rowSelects f.toNat n.toNat k.toNat) := by
  subst hf hn hk
  exact List.filter_congr (rowMatches_eq_rowSelects op)

theorem followsTable_row {op : Word} {i : Instr} {f n : Nibble} {k : Byte} (row : OpcodeRow) (hf : opFamily op = f)
    (hn : opN op = n) (hk : opKk op = k) (hrow : opcodeTable.filter (rowSelects f.toNat n.toNat k.toNat) = [row])
    (hname : mnemonicOf i = row.mnemonic) (hwf : i.wellFormed = true) : FollowsTable op i :=
  .inl ⟨row, (matchingRows_eq hf hn hk).trans hrow, hname, hwf⟩

theorem followsTable_nop {op : Word} {f n : Nibble} {k : Byte} (hf : opFamily op = f) (hn : opN op = n) (hk : opKk op = k)
    (hnone : opcodeTable.filter (rowSelects f.toNat n.toNat k.toNat) = []) : FollowsTable op (.nopUnmatched op) :=
  .inr ⟨(matchingRows_eq hf hn hk).trans hnone, rfl⟩

/-! ### The low bytes of families 0x0, 0xE and 0xF, and the low nibbles of family 0x8, that select no row (R101) -/

theorem rows_of_family0_nil (n k : Nat) (h : k ∉ [0xE0, 0xEE]) : opcodeTable.filter (rowSelects 0x0 n k) = [] := by
  simp_all [opcodeTable, opcodeRowsLow, opcodeRows8, opcodeRowsHigh, opcodeRowsF, rowSelects]

theorem rows_of_family8_nil (n k : Nat) (h : n ∉ [0, 1, 2, 3, 4, 5, 6, 7, 0xE]) :
    opcodeTable.filter (rowSelects 0x8 n k) = [] := by
  simp_all [opcodeTable, opcodeRowsLow, opcodeRows8, opcodeRowsHigh, opcodeRowsF, rowSelects]

theorem rows_of_familyE_nil (n k : Nat) (h : k ∉ [0x9E, 0xA1]) : opcodeTable.filter (rowSelects 0xE n k) = [] := by
  simp_all [opcodeTable, opcodeRowsLow, opcodeRows8, opcodeRowsHigh, opcodeRowsF, rowSelects]

theorem rows_of_familyF_nil (n k : Nat) (h : k ∉ [0x07, 0x0A, 0x15, 0x18, 0x1E, 0x29, 0x33, 0x55, 0x65]) :
    opcodeTable.filter (rowSelects 0xF n k) = [] := by
  simp_all [opcodeTable, opcodeRowsLow, opcodeRows8, opcodeRowsHigh, opcodeRowsF, rowSelects]

/-! ### Family by family -/

theorem followsTable_family0 {op : Word} (hf : opFamily op = 0x0) : FollowsTable op (decodeFamily0 .lowByte op) := by
  unfold decodeFamily0
  dsimp only
  split
  case h_1 hk => exact followsTable_row _ hf rfl hk rfl rfl rfl
  case h_2 hk => exact followsTable_row _ hf rfl hk rfl rfl rfl
  case h_3 => exact followsTable_nop hf rfl rfl (rows_of_family0_nil _ _ (by simp_all [← BitVec.toNat_inj]))

theorem followsTable_family8 {op : Word} (hf : opFamily op = 0x8) : FollowsTable op (decodeFamily8 op) := by
  unfold decodeFamily8
  split
  case h_10 => exact followsTable_nop hf rfl rfl (rows_of_family8_nil _ _ (by simp_all [← BitVec.toNat_inj]))
  all_goals exact followsTable_row _ hf ‹_› rfl rfl rfl rfl

theorem followsTable_familyE {op : Word} (hf : opFamily op = 0xE) : FollowsTable op (decodeFamilyE .lowByte op) := by
  unfold decodeFamilyE
  dsimp only
  split
  case h_1 hk => exact followsTable_row _ hf rfl hk rfl rfl rfl
  case h_2 hk => exact followsTable_row _ hf rfl hk rfl rfl rfl
  case h_3 => exact followsTable_nop hf rfl rfl (rows_of_familyE_nil _ _ (by simp_all [← BitVec.toNat_inj]))

theorem followsTable_familyF {op : Word} (hf : opFamily op = 0xF) : FollowsTable op (decodeFamilyF op) := by
  unfold decodeFamilyF
  split
  case h_10 => exact followsTable_nop hf rfl rfl (rows_of_familyF_nil _ _ (by simp_all [← BitVec.toNat_inj]))
  all_goals exact followsTable_row _ hf rfl ‹_› rfl rfl rfl

/-- The decoder and the table agree on every word. -/
theorem decodeWord_followsTable (op : Word) : FollowsTable op (decodeWord op) := by
  obtain hf | hf | hf | hf | hf | hf | hf | hf | hf | hf | hf | hf | hf | hf | hf | hf := nibble_cases (opFamily op)
  · rw [decodeWord_family0 op hf]; exact followsTable_family0 hf
  · rw [decodeWord_family1 op hf]; exact followsTable_row _ hf rfl rfl rfl rfl rfl
  · rw [decodeWord_family2 op hf]; exact followsTable_row _ hf rfl rfl rfl rfl rfl
  · rw [decodeWord_family3 op hf]; exact followsTable_row _ hf rfl rfl rfl rfl rfl
  · rw [decodeWord_family4 op hf]; exact followsTable_row _ hf rfl rfl rfl rfl rfl
  · rw [decodeWord_family5 op hf]; exact followsTable_row _ hf rfl rfl rfl rfl rfl
  · rw [decodeWord_family6 op hf]; exact followsTable_row _ hf rfl rfl rfl rfl rfl
  · rw [decodeWord_family7 op hf]; exact followsTable_row _ hf rfl rfl rfl rfl rfl
  · rw [decodeWord_family8 op hf]; exact followsTable_family8 hf
  · rw [decodeWord_family9 op hf]; exact followsTable_row _ hf rfl rfl rfl rfl rfl
  · rw [decodeWord_familyA op hf]; exact followsTable_row _ hf rfl rfl rfl rfl rfl
  · rw [decodeWord_familyB op hf]; exact followsTable_row _ hf rfl rfl rfl rfl rfl
  · rw [decodeWord_familyC op hf]; exact followsTable_row _ hf rfl rfl rfl rfl rfl
  · rw [decodeWord_familyD op hf]; exact followsTable_row _ hf rfl rfl rfl rfl rfl
  · rw [decodeWord_familyE op hf]; exact followsTable_familyE hf
  · rw [decodeWord_familyF op hf]; exact followsTable_familyF hf

/-- A word that matches no row decodes to the no-operation (R101). -/
theorem decodeWord_unmatched {op : Word} (h : opcodeTable.filter (rowMatches op) = []) : decodeWord op = .nopUnmatched op := by
  obtain ⟨row, hrow, -, -⟩ | ⟨-, hnop⟩ := decodeWord_followsTable op
  · rw [h] at hrow
    cases hrow
  · exact hnop

/-! ## The word of an instruction decodes to it (R91, R95) -/

theorem decodeWord_encode {i : Instr} (h : i.wellFormed = true) : decodeWord (encode i) = i := by
  cases i
  case cls => rfl
  case ret => rfl
  case nopUnmatched word => exact decodeWord_unmatched ((unmatchedWord_iff word).mp h)
  all_goals
    simp [encode, decodeWord, decodeWith, decode0ESelector, decodeFamily8, decodeFamilyE, decodeFamilyF,
      opFamily_nibbles, opX_nibbles, opY_nibbles, opN_nibbles, opFamily_nibbles_byte, opX_nibbles_byte, opKk_nibbles_byte,
      opFamily_nibble_addr, opAddr_nibble_addr]

/-! ## Decoding drops the ignored bits and no other (R96, R100, R104) -/

/-- A word under a mask is the word of its fields under the mask's fields. -/
theorem and_nibbles (op : Word) (f x y n : Nibble) :
    op &&& (f ++ x ++ y ++ n : Word) =
      ((opFamily op &&& f) ++ (opX op &&& x) ++ (opY op &&& y) ++ (opN op &&& n) : Word) := by
  have h : (opFamily op ++ opX op ++ opY op ++ opN op : Word) &&& (f ++ x ++ y ++ n : Word) =
      ((opFamily op &&& f) ++ (opX op &&& x) ++ (opY op &&& y) ++ (opN op &&& n) : Word) :=
    BitVec.and_append.trans (congrArg (· ++ _) (BitVec.and_append.trans (congrArg (· ++ _) BitVec.and_append)))
  rwa [word_eq_nibbles] at h

theorem nibble_and_ones (v : Nibble) : v &&& 0xF#4 = v := BitVec.and_allOnes

/-- CLS and RET ignore bits 11 to 8 (R99, R100). -/
theorem clear_opX (op : Word) : op &&& ~~~0x0F00 = (opFamily op ++ 0x0#4 ++ opY op ++ opN op : Word) := by
  have h := and_nibbles op 0xF#4 0x0#4 0xF#4 0xF#4
  rwa [nibble_and_ones, BitVec.and_zero, nibble_and_ones, nibble_and_ones] at h

/-- SHR and SHL ignore the field y (R100). -/
theorem clear_opY (op : Word) : op &&& ~~~0x00F0 = (opFamily op ++ opX op ++ 0x0#4 ++ opN op : Word) := by
  have h := and_nibbles op 0xF#4 0xF#4 0x0#4 0xF#4
  rwa [nibble_and_ones, nibble_and_ones, BitVec.and_zero, nibble_and_ones] at h

/-- The register comparisons ignore the low nibble (R96). -/
theorem clear_opN (op : Word) : op &&& ~~~0x000F = (opFamily op ++ opX op ++ opY op ++ 0x0#4 : Word) := by
  have h := and_nibbles op 0xF#4 0xF#4 0xF#4 0x0#4
  rwa [nibble_and_ones, nibble_and_ones, nibble_and_ones, BitVec.and_zero] at h

/-- An instruction's word is the given one with the bits the instruction ignores cleared. -/
def ClearsIgnored (op : Word) (i : Instr) : Prop := encode i = op &&& ~~~ignoredBits i

/-- An instruction that ignores no bit and whose word is the given one. -/
theorem clearsIgnored_of_same {op : Word} {i : Instr} (h0 : ignoredBits i = 0x0000) (h : encode i = op) :
    ClearsIgnored op i := by
  rw [ClearsIgnored, h0, h]
  exact BitVec.and_allOnes.symm

section
variable {op : Word} {f n : Nibble} {k : Byte} (hf : opFamily op = f)
include hf

theorem nibble_addr_eq : (f ++ opAddr op : Word) = op := by
  subst hf
  exact word_eq_nibble_addr op

theorem nibbles_byte_eq (hk : opKk op = k) : (f ++ opX op ++ k : Word) = op := by
  subst hf hk
  exact word_eq_nibbles_byte op

theorem nibbles_eq (hn : opN op = n) : (f ++ opX op ++ opY op ++ n : Word) = op := by
  subst hf hn
  exact word_eq_nibbles op

end

theorem clearsIgnored_nop (op : Word) : ClearsIgnored op (.nopUnmatched op) := clearsIgnored_of_same rfl rfl

theorem clearsIgnored_family0 {op : Word} (hf : opFamily op = 0x0) : ClearsIgnored op (decodeFamily0 .lowByte op) := by
  have hclear : ∀ k, opKk op = k → (0x0#4 ++ 0x0#4 ++ k : Word) = op &&& ~~~0x0F00 := by
    rintro k rfl
    apply BitVec.eq_of_toNat_eq
    rw [clear_opX, hf, toNat_nibbles, toNat_nibbles_byte, toNat_opKk_nibbles]
    simp
  unfold decodeFamily0
  dsimp only
  split
  case h_1 hk => exact hclear _ hk
  case h_2 hk => exact hclear _ hk
  case h_3 => exact clearsIgnored_nop op

theorem clearsIgnored_family8 {op : Word} (hf : opFamily op = 0x8) : ClearsIgnored op (decodeFamily8 op) := by
  have hshift : ∀ n, opN op = n → (0x8#4 ++ opX op ++ 0x0#4 ++ n : Word) = op &&& ~~~0x00F0 := by
    rintro n rfl
    rw [clear_opY, hf]
    rfl
  unfold decodeFamily8
  split
  case h_7 hn => exact hshift _ hn
  case h_9 hn => exact hshift _ hn
  case h_10 => exact clearsIgnored_nop op
  all_goals exact clearsIgnored_of_same rfl (nibbles_eq hf ‹_›)

theorem clearsIgnored_familyE {op : Word} (hf : opFamily op = 0xE) : ClearsIgnored op (decodeFamilyE .lowByte op) := by
  unfold decodeFamilyE
  dsimp only
  split
  case h_1 hk => exact clearsIgnored_of_same rfl (nibbles_byte_eq hf hk)
  case h_2 hk => exact clearsIgnored_of_same rfl (nibbles_byte_eq hf hk)
  case h_3 => exact clearsIgnored_nop op

theorem clearsIgnored_familyF {op : Word} (hf : opFamily op = 0xF) : ClearsIgnored op (decodeFamilyF op) := by
  unfold decodeFamilyF
  split
  case h_10 => exact clearsIgnored_nop op
  all_goals exact clearsIgnored_of_same rfl (nibbles_byte_eq hf ‹_›)

theorem clearsIgnored_compare {op : Word} {f : Nibble} (hf : opFamily op = f) :
    (f ++ opX op ++ opY op ++ 0x0#4 : Word) = op &&& ~~~0x000F := by
  rw [clear_opN, hf]

theorem clearsIgnored_decodeWord (op : Word) : ClearsIgnored op (decodeWord op) := by
  obtain hf | hf | hf | hf | hf | hf | hf | hf | hf | hf | hf | hf | hf | hf | hf | hf := nibble_cases (opFamily op)
  · rw [decodeWord_family0 op hf]; exact clearsIgnored_family0 hf
  · rw [decodeWord_family1 op hf]; exact clearsIgnored_of_same rfl (nibble_addr_eq hf)
  · rw [decodeWord_family2 op hf]; exact clearsIgnored_of_same rfl (nibble_addr_eq hf)
  · rw [decodeWord_family3 op hf]; exact clearsIgnored_of_same rfl (nibbles_byte_eq hf rfl)
  · rw [decodeWord_family4 op hf]; exact clearsIgnored_of_same rfl (nibbles_byte_eq hf rfl)
  · rw [decodeWord_family5 op hf]; exact clearsIgnored_compare hf
  · rw [decodeWord_family6 op hf]; exact clearsIgnored_of_same rfl (nibbles_byte_eq hf rfl)
  · rw [decodeWord_family7 op hf]; exact clearsIgnored_of_same rfl (nibbles_byte_eq hf rfl)
  · rw [decodeWord_family8 op hf]; exact clearsIgnored_family8 hf
  · rw [decodeWord_family9 op hf]; exact clearsIgnored_compare hf
  · rw [decodeWord_familyA op hf]; exact clearsIgnored_of_same rfl (nibble_addr_eq hf)
  · rw [decodeWord_familyB op hf]; exact clearsIgnored_of_same rfl (nibble_addr_eq hf)
  · rw [decodeWord_familyC op hf]; exact clearsIgnored_of_same rfl (nibbles_byte_eq hf rfl)
  · rw [decodeWord_familyD op hf]; exact clearsIgnored_of_same rfl (nibbles_eq hf rfl)
  · rw [decodeWord_familyE op hf]; exact clearsIgnored_familyE hf
  · rw [decodeWord_familyF op hf]; exact clearsIgnored_familyF hf

/-! ## The obligations -/

/-- Settles O9: the word of an instruction decodes to it, and its two bytes put together are that word. -/
theorem decodeOfEncode : Obligations.DecodeOfEncode := by
  refine fun i h => ⟨decodeWord_encode h, ?_⟩
  rw [encodeBytes, decodeBytes, wordOfBytes_bytes, decodeWord_encode h]

/-- Settles O10: family by family, the decoder's answer and the row the table selects agree. -/
theorem decodeFollowsOpcodeTable : Obligations.DecodeFollowsOpcodeTable := by
  intro op
  have hfollows := decodeWord_followsTable op
  refine ⟨hfollows.wellFormed, hfollows.imp_left ?_⟩
  rintro ⟨row, hrow, hname, -⟩
  exact ⟨row, hrow, hname⟩

/-- Settles O11: family by family, the operand fields and selectors make up all of the word but its ignored bits. -/
theorem encodeOfDecodeClearsIgnoredBits : Obligations.EncodeOfDecodeClearsIgnoredBits := clearsIgnored_decodeWord

/-- Settles O8: eleven words and a lone byte, run through the decoder. -/
theorem sampleWordsDecode : Obligations.SampleWordsDecode := by
  unfold Obligations.SampleWordsDecode
  decide

end Sys2Proof.Claims
end

section
/-! PROOFS. What a completed instruction can have done, said once: `Effect` lists, per instruction or group of instructions,
the one update its meaning makes. From it come the writers of every piece of state (spec 10_state.md) and of the general
registers. -/

namespace Sys2Proof.Claims

open Sys2Proof.Machine

/-! ## The update of a completed instruction -/

/-- The instructions that write pc in step 4 of the Cycle (R27). -/
def isControl : Instr → Bool
  | .ret | .jp _ | .call _ | .seImm _ _ | .sneImm _ _ | .seReg _ _ | .sneReg _ _ | .jpV0 _ | .skp _ | .sknp _
  | .ldVxK _ => true
  | _ => false

/-- `z` is the destination of an instruction that writes one register and no flag (R21). -/
def HasDestination (i : Instr) (z : Nibble) : Prop :=
  (∃ kk, i = .ldImm z kk ∨ i = .addImm z kk ∨ i = .rnd z kk) ∨
  (∃ y, i = .ldReg z y ∨ i = .orReg z y ∨ i = .andReg z y ∨ i = .xorReg z y) ∨ i = .ldVxDt z ∨ i = .ldVxK z

/-- `x` is the destination of one of the five flag-writing instructions of R172. -/
def HasFlaggedDestination (i : Instr) (x : Nibble) : Prop :=
  ∃ y, i = .addReg x y ∨ i = .sub x y ∨ i = .subn x y ∨ i = .shr x ∨ i = .shl x

/-- What an instruction that completes makes of a state. -/
inductive Effect (s : State) : Instr → State → Prop
  | nothing (w : Word) : Effect s (.nopUnmatched w) s
  | pc {i : Instr} (hi : isControl i = true) (v : Word) : Effect s i (s.setPc v)
  | call (addr : Addr12) (h : s.sp.val < 16) : Effect s (.call addr) { s with
      stack := s.stack.set s.sp.val s.pc h, sp := ⟨s.sp.val + 1, by omega⟩, pc := zextAddr addr }
  | ret (h : 0 < s.sp.val) : Effect s .ret { s with
      sp := ⟨s.sp.val - 1, by omega⟩, pc := s.stack[s.sp.val - 1]'(by omega) }
  | reg {i : Instr} {x : Nibble} (hi : HasDestination i x) (v : Byte) : Effect s i (s.setReg x v)
  | flag {i : Instr} {x : Nibble} (hi : HasFlaggedDestination i x) (r f : Byte) :
      Effect s i (writeResultAndFlag .flagLast x r f s)
  | rnd (x : Nibble) (kk v : Byte) : Effect s (.rnd x kk) (s.drawn.setReg x v)
  | ldI (addr : Addr12) (v : Word) : Effect s (.ldI addr) (s.setI v)
  | addI (x : Nibble) (v : Word) : Effect s (.addI x) (s.setI v)
  | ldF (x : Nibble) (v : Word) : Effect s (.ldF x) (s.setI v)
  | ldB (x : Nibble) {vs : List Byte} {m : Memory} (hm : storeBytes s.base vs s.mem = .ok m) : Effect s (.ldB x) (s.setMem m)
  | stRegs (x : Nibble) {vs : List Byte} {m : Memory} (hm : storeBytes s.base vs s.mem = .ok m) :
      Effect s (.stRegs x) (s.setMem m)
  | ldRegs (x : Nibble) (vs : List Byte) (hvs : vs.length = x.toNat + 1) :
      Effect s (.ldRegs x) { s with V := setRegsFrom 0 vs s.V }
  | cls : Effect s .cls (s.setFb darkFramebuffer)
  | drw (x y n : Nibble) (fb : Framebuffer) (v : Byte) : Effect s (.drw x y n) ((s.setFb fb).setReg regF v)
  | ldDtVx (x : Nibble) (v : Byte) : Effect s (.ldDtVx x) (s.setDt v)
  | ldStVx (x : Nibble) (v : Byte) : Effect s (.ldStVx x) (s.setSt v)

variable {i : Instr} {s t : State}

theorem Effect.skip (hi : isControl i = true) (cond : Bool) : Effect s i (s.skipIf cond) := by
  rw [skipIf_eq]
  exact .pc hi _

/-! ### What a completed instruction that can fault has done -/

theorem exec_call_next {addr : Addr12} (h : exec (.call addr) s = .next t) : ∃ hsp : s.sp.val < 16, t = { s with
    stack := s.stack.set s.sp.val s.pc hsp, sp := ⟨s.sp.val + 1, by omega⟩, pc := zextAddr addr } := by
  by_cases hsp : s.sp.val < 16
  · exact ⟨hsp, Host.Outcome.next.inj (h.symm.trans (exec_call_room addr s hsp))⟩
  · rw [exec_call_full addr s (by omega)] at h
    cases h

theorem exec_ret_next (h : exec .ret s = .next t) : ∃ hsp : 0 < s.sp.val, t = { s with
    sp := ⟨s.sp.val - 1, by omega⟩, pc := s.stack[s.sp.val - 1]'(by omega) } := by
  by_cases hsp : 0 < s.sp.val
  · exact ⟨hsp, Host.Outcome.next.inj (h.symm.trans (exec_ret_some s hsp))⟩
  · rw [exec_ret_empty s (by omega)] at h
    cases h

theorem exec_skp_next {x : Nibble} (h : exec (.skp x) s = .next t) :
    ∃ hx : (s.reg x).toNat < 16, t = s.skipIf s.keys[(s.reg x).toNat] := by
  by_cases hx : (s.reg x).toNat < 16
  · exact ⟨hx, Host.Outcome.next.inj (h.symm.trans (exec_skp_inside x s hx))⟩
  · rw [exec_skp_outside x s (by omega)] at h
    cases h

theorem exec_sknp_next {x : Nibble} (h : exec (.sknp x) s = .next t) :
    ∃ hx : (s.reg x).toNat < 16, t = s.skipIf (!s.keys[(s.reg x).toNat]) := by
  by_cases hx : (s.reg x).toNat < 16
  · exact ⟨hx, Host.Outcome.next.inj (h.symm.trans (exec_sknp_inside x s hx))⟩
  · rw [exec_sknp_outside x s (by omega)] at h
    cases h

theorem exec_ldVxK_next {x : Nibble} (h : exec (.ldVxK x) s = .next t) :
    (∃ k, leastPressed s.keys = some k ∧ t = s.setReg x (BitVec.ofNat 8 k)) ∨
    (leastPressed s.keys = none ∧ t = s.rewind) := by
  cases hk : leastPressed s.keys with
  | some k => exact .inl ⟨k, rfl, Host.Outcome.next.inj (h.symm.trans (exec_ldVxK_some x s k hk))⟩
  | none => exact .inr ⟨rfl, Host.Outcome.next.inj (h.symm.trans (exec_ldVxK_none x s hk))⟩

theorem exec_ldB_effect {x : Nibble} (h : exec (.ldB x) s = .next t) : Effect s (.ldB x) t := by
  by_cases hfit : s.I.toNat + 2 ≤ 4095
  · obtain ⟨m, hm, hexec⟩ := exec_ldB_inside x s hfit
    obtain rfl := Host.Outcome.next.inj (hexec.symm.trans h)
    exact .ldB x hm
  · rw [exec_ldB_outside x s (by omega)] at h
    cases h

theorem exec_stRegs_effect {x : Nibble} (h : exec (.stRegs x) s = .next t) : Effect s (.stRegs x) t := by
  obtain ⟨-, m, hm, rfl⟩ := exec_stRegs_next h
  exact .stRegs x hm

theorem exec_ldRegs_effect {x : Nibble} (h : exec (.ldRegs x) s = .next t) : Effect s (.ldRegs x) t := by
  by_cases hfit : s.I.toNat + x.toNat ≤ 4095
  · obtain rfl := Host.Outcome.next.inj ((exec_ldRegs_inside x s hfit).symm.trans h)
    exact .ldRegs x _ (by simp)
  · rw [exec_ldRegs_outside x s (by omega)] at h
    cases h

theorem exec_drw_effect {x y n : Nibble} (h : exec (.drw x y n) s = .next t) : Effect s (.drw x y n) t := by
  cases hd : drawSprite fbEdgePolicy s.mem s.base (s.spriteX x) (s.spriteY y) n.toNat s.fb with
  | ok d =>
    obtain rfl := Host.Outcome.next.inj ((exec_drw_ok x y n s d hd).symm.trans h)
    exact .drw x y n _ _
  | error f =>
    rw [exec_drw_error x y n s f hd] at h
    cases h

/-- Every instruction that completes makes the update `Effect` gives it. -/
theorem exec_effect (h : exec i s = .next t) : Effect s i t := by
  cases i
  case call addr =>
    obtain ⟨hsp, rfl⟩ := exec_call_next h
    exact .call addr hsp
  case ret =>
    obtain ⟨hsp, rfl⟩ := exec_ret_next h
    exact .ret hsp
  case skp =>
    obtain ⟨-, rfl⟩ := exec_skp_next h
    exact .skip rfl _
  case sknp =>
    obtain ⟨-, rfl⟩ := exec_sknp_next h
    exact .skip rfl _
  case ldVxK =>
    obtain ⟨k, -, rfl⟩ | ⟨-, rfl⟩ := exec_ldVxK_next h
    · exact .reg (.inr (.inr (.inr rfl))) _
    · exact .pc rfl _
  case ldB => exact exec_ldB_effect h
  case stRegs => exact exec_stRegs_effect h
  case ldRegs => exact exec_ldRegs_effect h
  case drw => exact exec_drw_effect h
  all_goals obtain rfl := Host.Outcome.next.inj h
  case nopUnmatched => exact .nothing _
  case cls => exact .cls
  case jp | jpV0 => exact .pc rfl _
  case seImm | sneImm | seReg | sneReg => exact .skip rfl _
  case ldImm kk => exact .reg (.inl ⟨kk, .inl rfl⟩) _
  case addImm kk => exact .reg (.inl ⟨kk, .inr (.inl rfl)⟩) _
  case ldReg y => exact .reg (.inr (.inl ⟨y, .inl rfl⟩)) _
  case orReg y => exact .reg (.inr (.inl ⟨y, .inr (.inl rfl)⟩)) _
  case andReg y => exact .reg (.inr (.inl ⟨y, .inr (.inr (.inl rfl))⟩)) _
  case xorReg y => exact .reg (.inr (.inl ⟨y, .inr (.inr (.inr rfl))⟩)) _
  case ldVxDt => exact .reg (.inr (.inr (.inl rfl))) _
  case addReg y => exact .flag ⟨y, .inl rfl⟩ _ _
  case sub y => exact .flag ⟨y, .inr (.inl rfl)⟩ _ _
  case subn y => exact .flag ⟨y, .inr (.inr (.inl rfl))⟩ _ _
  case shr => exact .flag ⟨0, .inr (.inr (.inr (.inl rfl)))⟩ _ _
  case shl => exact .flag ⟨0, .inr (.inr (.inr (.inr rfl)))⟩ _ _
  case rnd => exact .rnd _ _ _
  case ldI => exact .ldI _ _
  case addI => exact .addI _ _
  case ldF => exact .ldF _ _
  case ldDtVx => exact .ldDtVx _ _
  case ldStVx => exact .ldStVx _ _

/-! ## The writers of each piece of state (R25 to R39) -/

section
variable (h : exec i s = .next t)
include h

theorem exec_keeps_pc (hi : isControl i = false) : t.pc = s.pc := by
  cases exec_effect h
  case pc hc => rw [hi] at hc; cases hc
  case call => cases hi
  case ret => cases hi
  all_goals rfl

theorem exec_keeps_mem (hi : ∀ x, i ≠ .ldB x ∧ i ≠ .stRegs x) : t.mem = s.mem := by
  cases exec_effect h
  case ldB x _ _ _ => exact absurd rfl (hi x).1
  case stRegs x _ _ _ => exact absurd rfl (hi x).2
  all_goals rfl

theorem exec_keeps_I (hi : ∀ x a, i ≠ .ldI a ∧ i ≠ .addI x ∧ i ≠ .ldF x) : t.I = s.I := by
  cases exec_effect h
  case ldI a _ => exact absurd rfl (hi 0 a).1
  case addI x _ => exact absurd rfl (hi x 0).2.1
  case ldF x _ => exact absurd rfl (hi x 0).2.2
  all_goals rfl

theorem exec_keeps_fb (hi : ∀ x y n, i ≠ .cls ∧ i ≠ .drw x y n) : t.fb = s.fb := by
  cases exec_effect h
  case cls => exact absurd rfl (hi 0 0 0).1
  case drw x y n _ _ => exact absurd rfl (hi x y n).2
  all_goals rfl

theorem exec_keeps_stack (hi : ∀ a, i ≠ .call a) : t.stack = s.stack := by
  cases exec_effect h
  case call a _ => exact absurd rfl (hi a)
  all_goals rfl

theorem exec_keeps_sp (hi : ∀ a, i ≠ .call a ∧ i ≠ .ret) : t.sp = s.sp := by
  cases exec_effect h
  case call a _ => exact absurd rfl (hi a).1
  case ret => exact absurd rfl (hi 0).2
  all_goals rfl

theorem exec_keeps_DT (hi : ∀ x, i ≠ .ldDtVx x) : t.DT = s.DT := by
  cases exec_effect h
  case ldDtVx x _ => exact absurd rfl (hi x)
  all_goals rfl

theorem exec_keeps_ST (hi : ∀ x, i ≠ .ldStVx x) : t.ST = s.ST := by
  cases exec_effect h
  case ldStVx x _ => exact absurd rfl (hi x)
  all_goals rfl

theorem exec_keeps_draws (hi : ∀ x kk, i ≠ .rnd x kk) : t.draws = s.draws := by
  cases exec_effect h
  case rnd x kk _ => exact absurd rfl (hi x kk)
  all_goals rfl

theorem exec_keeps_keys : t.keys = s.keys := by cases exec_effect h <;> rfl

theorem exec_keeps_faulted : t.faulted = s.faulted := by cases exec_effect h <;> rfl

/-- A store of a completed instruction writes memory by the two primitives, which keep its canonical form. -/
theorem exec_keeps_wf (hwf : Memory.wf s.mem) : Memory.wf t.mem := by
  cases exec_effect h
  case ldB hm =>
    obtain ⟨-, -, hkeeps⟩ := storeBytes_spec _ _ _ _ hm
    exact (hkeeps hwf).1
  case stRegs hm =>
    obtain ⟨-, -, hkeeps⟩ := storeBytes_spec _ _ _ _ hm
    exact (hkeeps hwf).1
  all_goals exact hwf

end

theorem sameMemory_of_eq (h : t.mem = s.mem) : sameMemory s t := fun _ => by rw [h]

/-- The load of a run of registers changes none past its last one. -/
theorem setRegsFrom_above {vs : List Byte} {x z : Nibble} (s : State) (hvs : vs.length = x.toNat + 1)
    (hz : x.toNat < z.toNat) : ({ s with V := setRegsFrom 0 vs s.V } : State).reg z = s.reg z := by
  rw [State.reg, getElem_setRegsFrom, dif_neg (by omega)]
  rfl

/-! ## The obligations -/

/-- Settles O51: each piece of state is in the updates of its writers only. -/
theorem eachPieceHasItsWriters : Obligations.EachPieceHasItsWriters := fun _ _ _ h =>
  ⟨fun hi => ⟨exec_keeps_mem h hi, sameMemory_of_eq (exec_keeps_mem h hi)⟩, exec_keeps_I h, exec_keeps_fb h,
    exec_keeps_stack h, exec_keeps_sp h, exec_keeps_DT h, exec_keeps_ST h, exec_keeps_draws h, exec_keeps_keys h,
    exec_keeps_faulted h⟩

/-- Settles O52: the updates that write registers are those of the instructions named, at the registers named. -/
theorem registersChangeOnlyAsNamed : Obligations.RegistersChangeOnlyAsNamed := by
  intro i s t z h hz
  cases exec_effect h
  case reg x v hi =>
    obtain rfl : z = x := by_contra fun hne => hz (reg_setReg_ne s x z v hne)
    obtain hi | hi | hi | hi := hi
    · exact .inl hi
    · exact .inr (.inl hi)
    · exact .inr (.inr (.inr (.inr (.inl hi))))
    · exact .inr (.inr (.inr (.inr (.inr (.inl hi)))))
  case rnd x kk v =>
    obtain rfl : z = x := by_contra fun hne => hz (reg_setReg_ne _ x z v hne)
    exact .inl ⟨kk, .inr (.inr rfl)⟩
  case flag x r f hi =>
    have hzx : z = x ∨ z = 0xF := by
      by_contra hne
      obtain ⟨hx, hF⟩ := not_or.mp hne
      exact hz ((reg_writeResultAndFlag_flagLast s x z r f).trans ((if_neg hF).trans (if_neg hx)))
    obtain ⟨y, hi⟩ := hi
    exact .inr (.inr (.inl ⟨x, y, hzx, hi⟩))
  case drw x y n fb v =>
    obtain rfl : z = regF := by_contra fun hne => hz (reg_setReg_ne _ regF z v hne)
    exact .inr (.inr (.inr (.inl ⟨x, y, n, rfl, rfl⟩)))
  case ldRegs x vs hvs =>
    have hzx : z.toNat ≤ x.toNat := by
      by_contra hgt
      exact hz (setRegsFrom_above s hvs (by omega))
    exact .inr (.inr (.inr (.inr (.inr (.inr ⟨x, rfl, hzx⟩)))))
  all_goals exact absurd rfl hz

end Sys2Proof.Claims
end

section
/-! PROOFS. The Cycle (spec 40_cycle_and_dispatch.md): what it runs, where it leaves pc and the timers, and the invariants
of memory and of the program counter that every step keeps. -/

namespace Sys2Proof.Claims

open Sys2Proof.Machine

variable {i : Instr} {s t : State}

/-! ## The step through the next instruction (R120 to R125) -/

theorem nextInstr_some (h : nextInstr s = some i) : s.pc.toNat + 1 < memSize := by
  by_contra hout
  rw [nextInstr, fetch16_outside _ _ (by omega)] at h
  cases h

theorem step_of_nextInstr (hf : s.faulted = none) (h : nextInstr s = some i) :
    step s = tickOutcome (exec i s.advance) := by
  have hpc := nextInstr_some h
  rw [nextInstr_inside s hpc] at h
  rw [step_runs s hf hpc, Option.some.inj h]

/-- A step of an unfaulted machine that completes: the decoded instruction, executed on the advanced state, then one tick. -/
theorem step_next_unfaulted (hf : s.faulted = none) (h : step s = .next t) :
    s.pc.toNat + 1 < memSize ∧ ∃ i u, nextInstr s = some i ∧ exec i s.advance = .next u ∧ t = u.tick := by
  obtain ⟨hnot, -⟩ | ⟨-, hrun⟩ := step_next s t h
  · exact absurd hf hnot
  · exact hrun

theorem nextInstr_of_decodeBytes {rest : List Byte} (hpc : s.pc.toNat ≤ 4094)
    (h : decodeBytes [Memory.read s.mem s.pc.toNat, Memory.read s.mem (s.pc.toNat + 1)] = .ok (i, rest)) :
    nextInstr s = some i := by
  obtain ⟨rfl, -⟩ := Prod.mk.inj (Except.ok.inj h)
  exact nextInstr_inside s (by simp only [memSize]; omega)

/-- Settles O1: a step that can fetch is the decoded instruction executed on the advanced state, with a tick behind it. -/
theorem stepRunsDecodedInstruction : Obligations.StepRunsDecodedInstruction := by
  intro s i rest hf hpc hdec
  have hstep := step_of_nextInstr hf (nextInstr_of_decodeBytes hpc hdec)
  refine ⟨fun u hu => ?_, fun f hfault => ?_⟩
  · rw [hstep, show exec i s.advance = .next u from hu]
    rfl
  · rw [hstep, show exec i s.advance = .fault f from hfault]
    rfl

/-- Settles O2: the fetch's fault is the step's, at the first of its two addresses that is outside memory. -/
theorem fetchAboveMemoryFaults : Obligations.FetchAboveMemoryFaults := by
  intro s hf hpc
  have haddr : max s.pc.toNat memSize = if s.pc.toNat = 4095 then 4096 else s.pc.toNat := by
    unfold memSize
    split <;> omega
  rw [step_fetchFault s hf (by simp only [memSize]; omega), haddr]

/-- Settles O3: the step looks at the fault mark first. -/
theorem faultedMachineStays : Obligations.FaultedMachineStays := step_faulted

/-! ## The timers (R31, R125) -/

/-- Settles O4: the tick is the last of the step, and no instruction but its load changes a timer before it. -/
theorem timersTickOncePerCycle : Obligations.TimersTickOncePerCycle := by
  intro s t hf h
  obtain ⟨-, i, u, hi, hu, rfl⟩ := step_next_unfaulted hf h
  refine ⟨i, u, hi, hu, rfl, tickTimer_toNat _, tickTimer_toNat _, fun hDT => ?_, fun hST => ?_⟩
  · rw [tick_DT, tickTimer_toNat, exec_keeps_DT hu hDT, advance_DT]
  · rw [tick_ST, tickTimer_toNat, exec_keeps_ST hu hST, advance_ST]

/-- A Cycle that completes leaves the machine unfaulted. -/
theorem step_keeps_unfaulted (hf : s.faulted = none) (h : step s = .next t) : t.faulted = none := by
  obtain ⟨-, i, u, -, hu, rfl⟩ := step_next_unfaulted hf h
  rw [tick_faulted, exec_keeps_faulted hu, advance_faulted, hf]

theorem cycles_succ (k : Nat) (hstep : step s = .next t) : cycles (k + 1) s = cycles k t := by
  rw [cycles, hstep]

theorem cycles_succ_next {k : Nat} {u : State} (h : cycles (k + 1) s = .next u) :
    ∃ t, step s = .next t ∧ cycles k t = .next u := by
  rw [cycles] at h
  split at h
  · next t hstep => exact ⟨t, hstep, h⟩
  · cases h
  · cases h

/-- Settles O7, by induction on the number of Cycles: each takes one from the delay timer it does not load. -/
theorem delayTimerCountsCycles : Obligations.DelayTimerCountsCycles := by
  intro k
  induction k with
  | zero =>
    intro s t _ h _
    obtain rfl := Host.Outcome.next.inj h
    rfl
  | succ k ih =>
    intro s u hf h hload
    obtain ⟨t, hstep, hrest⟩ := cycles_succ_next h
    obtain ⟨i, _, hi, -, -, -, -, hDT, -⟩ := timersTickOncePerCycle s t hf hstep
    have hfirst : t.DT.toNat = s.DT.toNat - 1 :=
      hDT fun x hx => hload 0 (by omega) s rfl x (by rw [hi, hx])
    have hlater := ih t u (step_keeps_unfaulted hf hstep) hrest
      fun j hj v hv => hload (j + 1) (by omega) v ((cycles_succ j hstep).trans hv)
    omega

/-! ## A finished machine (R130, R266) -/

theorem finished_cases (h : finished s = true) :
    s.faulted = none ∧ ∃ addr, nextInstr s = some (.jp addr) ∧ zextAddr addr = s.pc := by
  simp only [finished, Bool.and_eq_true, beq_iff_eq] at h
  obtain ⟨hf, hjp⟩ := h
  refine ⟨hf, ?_⟩
  split at hjp
  · next addr hi => exact ⟨addr, hi, beq_iff_eq.mp hjp⟩
  · cases hjp

/-- Settles O6: the jump sets pc back to where it was before the advance, so the tick is all that is left. -/
theorem jumpToSelfOnlyRunsTimers : Obligations.JumpToSelfOnlyRunsTimers := by
  intro s h
  obtain ⟨hf, addr, hi, haddr⟩ := finished_cases h
  have hexec : exec (.jp addr) s.advance = .next s := by
    show Host.Outcome.next (s.advance.setPc (zextAddr addr)) = _
    rw [haddr]
    rfl
  refine ⟨s.tick, ?_, rfl, fun _ => rfl, tickTimer_toNat _, tickTimer_toNat _, h⟩
  rw [step_of_nextInstr hf hi, hexec]
  rfl

/-! ## The program counter (R26, R27) -/

theorem advance_skipIf_pc (s : State) (cond : Bool) :
    (s.advance.skipIf cond).pc = if cond = true then s.pc + 4 else s.pc + 2 := by
  rw [skipIf_pc, advance_pc, BitVec.add_assoc]
  rfl

theorem keys_getD (keys : Keypad) {k : Nat} (hk : k < 16) : keys.toList.getD k false = keys[k] := by
  simp [List.getD_eq_getElem?_getD, hk]

theorem true_mem_keys_iff (keys : Keypad) : true ∈ keys.toList ↔ leastPressed keys ≠ none := by
  simp [leastPressed, List.findIdx?_eq_none_iff]

/-- An instruction executed on the advanced state leaves pc where the table of R27 has it. -/
theorem exec_pcAfter (h : exec i s.advance = .next t) : t.pc = pcAfter i s := by
  cases i
  case ret =>
    obtain ⟨hsp, rfl⟩ := exec_ret_next h
    have hsp : 0 < s.sp.val := hsp
    rw [pcAfter, dif_pos hsp]
    rfl
  case call =>
    obtain ⟨-, rfl⟩ := exec_call_next h
    rfl
  case skp x =>
    obtain ⟨hx, rfl⟩ := exec_skp_next h
    have hx : (s.reg x).toNat < 16 := hx
    rw [advance_skipIf_pc, pcAfter, keys_getD _ hx]
    rfl
  case sknp x =>
    obtain ⟨hx, rfl⟩ := exec_sknp_next h
    have hx : (s.reg x).toNat < 16 := hx
    rw [advance_skipIf_pc, pcAfter, keys_getD _ hx]
    simp
  case ldVxK =>
    obtain ⟨k, hk, rfl⟩ | ⟨hk, rfl⟩ := exec_ldVxK_next h
    · exact (if_pos ((true_mem_keys_iff s.keys).mpr fun hnone => nomatch hk.symm.trans hnone)).symm
    · rw [rewind_pc, advance_pc, BitVec.add_sub_cancel]
      exact (if_neg fun hmem => (true_mem_keys_iff s.keys).mp hmem hk).symm
  case jp | jpV0 =>
    obtain rfl := Host.Outcome.next.inj h
    rfl
  case seImm | sneImm | seReg | sneReg =>
    obtain rfl := Host.Outcome.next.inj h
    rw [advance_skipIf_pc]
    simp [pcAfter]
  all_goals exact exec_keeps_pc h rfl

/-- Settles O5: the tick keeps the pc that the instruction left. -/
theorem programCounterAfterEveryInstruction : Obligations.ProgramCounterAfterEveryInstruction := by
  intro s t i hf hi h
  rw [step_of_nextInstr hf hi, tickOutcome_next] at h
  obtain ⟨u, hu, rfl⟩ := h
  rw [tick_pc]
  exact exec_pcAfter hu

/-! ## The invariants (R28, log 13) -/

/-- Settles O12: a step is nothing, or an instruction that keeps the canonical form and a tick that leaves memory alone. -/
theorem stepKeepsMemoryCanonical : Obligations.StepKeepsMemoryCanonical := by
  intro s t hwf h
  obtain ⟨-, rfl⟩ | ⟨-, -, i, u, -, hu, rfl⟩ := step_next s t h
  · exact hwf
  · rw [tick_mem]
    exact exec_keeps_wf hu hwf

/-- Every entry of R27's table is at most 0x10FE for an instruction in memory (R28); the greatest is V0 + addr. -/
theorem pcAfter_le (i : Instr) (hpc : s.pc.toNat + 1 < memSize) (hslots : ∀ slot ∈ s.stack.toList, slot.toNat ≤ 4096) :
    (pcAfter i s).toNat ≤ 0x10FE := by
  have hpc : s.pc.toNat < 4095 := Nat.lt_of_succ_lt_succ hpc
  have hnext : (s.pc + 2).toNat ≤ 0x10FE := by bv_omega
  have hskip : (s.pc + 4).toNat ≤ 0x10FE := by bv_omega
  cases i
  case jp addr | call addr =>
    have := toNat_zextAddr addr
    exact this.trans_le (by omega)
  case jpV0 addr =>
    have := toNat_zextByte_add_zextAddr (s.reg 0) addr
    exact this.trans_le (by omega)
  case ret =>
    rw [pcAfter]
    split
    · exact (hslots _ (by simp)).trans (by decide)
    · exact hnext
  case seImm | sneImm | seReg | sneReg | skp | sknp =>
    rw [pcAfter]
    split
    · exact hskip
    · exact hnext
  case ldVxK =>
    rw [pcAfter]
    split
    · exact hnext
    · omega
  all_goals exact hnext

/-- A CALL in memory pushes a return address of at most 4096, and no other instruction changes a slot. -/
theorem exec_keeps_slots (hpc : s.pc.toNat ≤ 4096) (hslots : ∀ slot ∈ s.stack.toList, slot.toNat ≤ 4096)
    (h : exec i s = .next t) : ∀ slot ∈ t.stack.toList, slot.toNat ≤ 4096 := by
  by_cases hi : ∃ a, i = .call a
  · obtain ⟨a, rfl⟩ := hi
    obtain ⟨hsp, rfl⟩ := exec_call_next h
    intro slot hslot
    rw [Vector.toList_set] at hslot
    obtain hold | rfl := List.mem_or_eq_of_mem_set hslot
    · exact hslots slot hold
    · exact hpc
  · rw [exec_keeps_stack h fun a ha => hi ⟨a, ha⟩]
    exact hslots

/-- Settles O13: pc is an entry of R27's table, and the stack only ever takes the address after an instruction. -/
theorem stepKeepsProgramCounterReach : Obligations.StepKeepsProgramCounterReach := by
  rintro s t hf ⟨-, hslots⟩ h
  obtain ⟨hpc, i, u, -, hu, rfl⟩ := step_next_unfaulted hf h
  have hadvance : s.advance.pc.toNat ≤ 4096 := by
    rw [advance_pc]
    simp only [memSize] at hpc
    bv_omega
  constructor
  · rw [tick_pc, exec_pcAfter hu]
    exact pcAfter_le i hpc hslots
  · rw [tick_stack]
    exact exec_keeps_slots hadvance hslots hu

theorem pcReach_reset : pcReach State.reset := by
  refine ⟨by decide, fun slot hslot => ?_⟩
  obtain rfl : slot = 0 := by simpa [State.reset] using hslot
  decide

/-- Settles O14: nothing is listed in memory, pc is 0x200 and every slot is 0. -/
theorem resetMeetsInvariants : Obligations.ResetMeetsInvariants :=
  ⟨wf_nil, pcReach_reset, wf_nil, fun _ => pcReach_reset⟩

end Sys2Proof.Claims
end

section
/-! PROOFS. The host's operations (spec 60_exceptions.md R262 to R264, 20_memory.md R71) and the state after reset
(10_state.md R42): what each operation answers, and the invariant of the machine under all of them. -/

namespace Sys2Proof.Claims

open Sys2Proof.Machine

variable {h : Session}

/-! ## What the operations answer -/

/-- LoadROM stores its bytes from 0x200 on when there are at most 3584 of them (R71). -/
theorem loadRom_fits {bytes : List Byte} (s : State) (hlen : bytes.length ≤ romMax) :
    ∃ m, storeBytes progBase bytes s.mem = .ok m ∧ loadRom bytes s = .ok (s.setMem m) := by
  have hroom : progBase + bytes.length ≤ memSize := by
    simp only [progBase, memSize, romMax] at hlen ⊢
    omega
  obtain ⟨m, hm⟩ := storeBytes_fits progBase bytes s.mem hroom
  exact ⟨m, hm, by rw [loadRom, if_pos hlen, hm]⟩

theorem loadRom_tooLarge {bytes : List Byte} (s : State) (hlen : romMax < bytes.length) :
    loadRom bytes s = .error (.romTooLarge bytes.length) :=
  if_neg (Nat.not_le.mpr hlen)

theorem loadRom_ok {bytes : List Byte} {s t : State} (hload : loadRom bytes s = .ok t) :
    ∃ m, storeBytes progBase bytes s.mem = .ok m ∧ t = s.setMem m := by
  by_cases hlen : bytes.length ≤ romMax
  · obtain ⟨m, hm, hok⟩ := loadRom_fits s hlen
    exact ⟨m, hm, Except.ok.inj (hload.symm.trans hok)⟩
  · rw [loadRom_tooLarge s (by omega)] at hload
    cases hload

theorem hostOp_loadRom_ok {bytes : List Byte} {s : State} (hp : h.phase = .constructed)
    (hload : loadRom bytes h.core = .ok s) : hostOp (.loadRom bytes) h = .ok (⟨.loaded, s⟩, .nothing) := by
  simp only [hostOp, hp, hload]

theorem hostOp_loadRom_error {bytes : List Byte} {r : HostRefusal} (hp : h.phase = .constructed)
    (hload : loadRom bytes h.core = .error r) : hostOp (.loadRom bytes) h = .error r := by
  simp only [hostOp, hp, hload]

theorem hostOp_loadRom_later (bytes : List Byte) (hp : h.phase ≠ .constructed) :
    hostOp (.loadRom bytes) h = .error .loadOutOfTurn := by
  obtain ⟨phase, s⟩ := h
  cases phase
  case constructed => exact absurd rfl hp
  case loaded => rfl
  case running => rfl

/-- A Cycle in turn: the step's next state, or its fault taken. -/
theorem hostOp_cycle_next {t : State} (hp : h.phase ≠ .constructed) (hstep : step h.core = .next t) :
    hostOp .cycle h = .ok (⟨.running, t⟩, .nothing) := by
  obtain ⟨phase, s⟩ := h
  cases phase
  case constructed => exact absurd rfl hp
  all_goals simp only [hostOp, hstep]

theorem hostOp_cycle_fault {f : Fault} (hp : h.phase ≠ .constructed) (hstep : step h.core = .fault f) :
    hostOp .cycle h = .ok (⟨.running, takeFault f h.core⟩, .nothing) := by
  obtain ⟨phase, s⟩ := h
  cases phase
  case constructed => exact absurd rfl hp
  all_goals simp only [hostOp, hstep]

theorem hostOp_cycle_refused {r : Refusal} (hp : h.phase ≠ .constructed) (hstep : step h.core = .refused r) :
    hostOp .cycle h = .error (.coreRefused r) := by
  obtain ⟨phase, s⟩ := h
  cases phase
  case constructed => exact absurd rfl hp
  all_goals simp only [hostOp, hstep]

theorem hostOp_cycle_constructed (hp : h.phase = .constructed) : hostOp .cycle h = .error .cycleBeforeLoad := by
  simp only [hostOp, hp]

/-! ## The invariant under the host's operations -/

theorem goodState_step {s t : State} (hs : goodState s) (hstep : step s = .next t) : goodState t := by
  obtain ⟨hwf, hreach⟩ := hs
  refine ⟨stepKeepsMemoryCanonical s t hwf hstep, fun hft => ?_⟩
  have hfs : s.faulted = none := by
    by_contra hf
    rw [step_faulted s hf] at hstep
    obtain rfl := Host.Outcome.next.inj hstep
    exact hf hft
  exact stepKeepsProgramCounterReach s t hfs (hreach hfs) hstep

theorem goodState_takeFault (f : Fault) (s : State) : goodState (takeFault f s) :=
  ⟨wf_takeFault f s, fun hf => by rw [takeFault_faulted] at hf; cases hf⟩

theorem goodState_storeBytes {s : State} {base : Nat} {vs : List Byte} {m : Memory} (hs : goodState s)
    (hm : storeBytes base vs s.mem = .ok m) : goodState (s.setMem m) := by
  obtain ⟨-, -, hkeeps⟩ := storeBytes_spec _ _ _ _ hm
  exact ⟨(hkeeps hs.1).1, hs.2⟩

/-- Settles O15: a step keeps the invariant by O12 and O13, a fault leaves it true, and the other operations store bytes
or touch nothing it speaks of. -/
theorem hostOperationsKeepGoodState : Obligations.HostOperationsKeepGoodState := by
  intro op h h' reply hgood hop
  cases op
  case reset =>
    obtain ⟨rfl, -⟩ := Prod.mk.inj (Except.ok.inj hop)
    exact ⟨wf_nil, fun _ => pcReach_reset⟩
  case loadRom bytes =>
    by_cases hp : h.phase = .constructed
    · cases hload : loadRom bytes h.core with
      | ok s =>
        rw [hostOp_loadRom_ok hp hload] at hop
        obtain ⟨rfl, -⟩ := Prod.mk.inj (Except.ok.inj hop)
        obtain ⟨m, hm, rfl⟩ := loadRom_ok hload
        exact goodState_storeBytes hgood hm
      | error r =>
        rw [hostOp_loadRom_error hp hload] at hop
        cases hop
    · rw [hostOp_loadRom_later bytes hp] at hop
      cases hop
  case setKeys keys =>
    obtain ⟨rfl, -⟩ := Prod.mk.inj (Except.ok.inj hop)
    exact hgood
  case cycle =>
    by_cases hp : h.phase = .constructed
    · rw [hostOp_cycle_constructed hp] at hop
      cases hop
    · cases hstep : step h.core with
      | next t =>
        rw [hostOp_cycle_next hp hstep] at hop
        obtain ⟨rfl, -⟩ := Prod.mk.inj (Except.ok.inj hop)
        exact goodState_step hgood hstep
      | fault f =>
        rw [hostOp_cycle_fault hp hstep] at hop
        obtain ⟨rfl, -⟩ := Prod.mk.inj (Except.ok.inj hop)
        exact goodState_takeFault f h.core
      | refused r =>
        rw [hostOp_cycle_refused hp hstep] at hop
        cases hop
  case readFramebuffer =>
    obtain ⟨rfl, -⟩ := Prod.mk.inj (Except.ok.inj hop)
    exact hgood
  case readSoundTimer =>
    obtain ⟨rfl, -⟩ := Prod.mk.inj (Except.ok.inj hop)
    exact hgood

/-! ## Loading, latching, reading -/

/-- Settles O17: an image that fits is a run of stores from 0x200 on; a longer one is refused before any store. -/
theorem romLoadPlacesBytes : Obligations.RomLoadPlacesBytes := by
  refine fun bytes h hp hwf => ⟨fun hlen => ?_, fun hlen => ?_⟩
  · obtain ⟨m, hm, hload⟩ := loadRom_fits h.core hlen
    obtain ⟨-, hframe, hstored⟩ := storeBytes_spec _ _ _ _ hm
    exact ⟨⟨.loaded, h.core.setMem m⟩, hostOp_loadRom_ok hp hload, rfl, rfl,
      (hstored hwf).2, hframe⟩
  · exact hostOp_loadRom_error hp (loadRom_tooLarge h.core hlen)

/-- Settles O18: the fault is taken into the mark, and a step that finds the mark set changes nothing. -/
theorem faultIsLatchedUntilReset : Obligations.FaultIsLatchedUntilReset := by
  intro h f hp hstep
  have hmarked : (takeFault f h.core).faulted ≠ none := by
    rw [takeFault_faulted]
    exact nofun
  refine ⟨⟨.running, takeFault f h.core⟩, hostOp_cycle_fault hp hstep, takeFault_faulted _ f, takeFault_keys _ f,
    hostOp_cycle_next nofun (step_faulted _ hmarked), ⟨.constructed, freshReset (takeFault f h.core)⟩, rfl, rfl, rfl⟩

/-- Settles O19: SetKeys and the reads are one update and no update; the phase decides whether the others are in turn. -/
theorem hostReadsAndKeysTouchNothingElse : Obligations.HostReadsAndKeysTouchNothingElse :=
  fun _ _ bytes => ⟨rfl, rfl, rfl, hostOp_cycle_constructed, hostOp_loadRom_later bytes⟩

/-! ## The state after reset -/

theorem reset_reg (z : Nibble) : State.reset.reg z = 0 := by
  simp [State.reg, State.reset]

/-- The font of the model is the glyphs of R43 one after another. -/
theorem unlisted_glyph : ∀ d < 16, ∀ k < 5, unlisted (0x050 + 5 * d + k) = (glyphs.getD d []).getD k 0 := by
  decide

/-- Settles O16: field by field; memory lists nothing, so it reads as the font and zeros. -/
theorem resetState : Obligations.ResetState :=
  ⟨reset_reg, rfl, rfl, rfl, fun slot hslot => by simpa [State.reset] using hslot, rfl, rfl, rfl,
    fun y _ x _ => fbCell_darkFramebuffer y x, unlisted_glyph, unlisted_zero⟩

end Sys2Proof.Claims
end

section
/-! PROOFS. Memory and the memory instructions (spec 20_memory.md, 43_index_and_memory.md): a byte written is the byte read,
what LD B, LD [I] and LD Vx, [I] leave when their bytes are in memory, and where they fault when one is not. -/

namespace Sys2Proof.Claims

open Sys2Proof.Machine

/-- Settles O20: inside memory the two primitives are the write and the read of the canonical form. -/
theorem memoryReadAfterWrite : Obligations.MemoryReadAfterWrite := by
  intro m a v hwf ha
  have inside : ∀ b, b ≤ 4095 → b < memSize := fun b hb => Nat.lt_succ_of_le hb
  refine ⟨Memory.write m a v, memWrite_inside m a v (inside a ha), wf_write m hwf a v (inside a ha), ?_, fun b hb hne => ?_⟩
  · rw [memRead_inside _ _ (inside a ha), read_write m hwf]
  · rw [memRead_inside _ _ (inside b hb), memRead_inside _ _ (inside b hb), read_write_ne m a b v hne]

/-- Settles O21: the fetch reads registers z and w where the store put them. -/
theorem storedBytesAreFetched : Obligations.StoredBytesAreFetched := by
  intro x z w s t hwf h hzw hwx
  obtain ⟨hfit, m, hstore, rfl⟩ := exec_stRegs_next h
  have hz : Memory.read m (s.I.toNat + z.toNat) = s.reg z := read_storeBytes_regsUpTo (by omega) hwf hstore
  have hw : Memory.read m (s.I.toNat + z.toNat + 1) = s.reg w := by
    rw [Nat.add_assoc, hzw]
    exact read_storeBytes_regsUpTo hwx hwf hstore
  refine ⟨_, fetch16_inside m _ (by simp only [memSize]; omega), ?_⟩
  rw [toNat_wordOfBytes, hz, hw]

/-- A decimal digit of a byte fits in a byte (R193). -/
theorem toNat_digit {d : Nat} (hd : d ≤ 255) : (BitVec.ofNat 8 d).toNat = d := Nat.mod_eq_of_lt (Nat.lt_succ_of_le hd)

/-- Settles O36: the three digits are stored as one run of bytes at I. -/
theorem bcdStoresDigits : Obligations.BcdStoresDigits := by
  intro x s hwf hI
  obtain ⟨m, hstore, hexec⟩ := exec_ldB_inside x s hI
  obtain ⟨-, hframe, hstored⟩ := storeBytes_spec _ _ _ _ hstore
  rw [bcdDigits_length] at hframe
  have hdigit : ∀ k, (hk : k < 3) → Memory.read m (s.I.toNat + k) = (bcdDigits (s.reg x))[k] := (hstored hwf).2
  refine ⟨s.setMem m, hexec, ?hundreds, ?tens, ?ones, fun a ha => hframe a (ha.imp_right Nat.succ_le_of_lt), rfl⟩
  case hundreds =>
    exact (congrArg BitVec.toNat (hdigit 0 (by decide))).trans (toNat_digit (by omega))
  case tens =>
    exact (congrArg BitVec.toNat (hdigit 1 (by decide))).trans (toNat_digit (by omega))
  case ones =>
    exact (congrArg BitVec.toNat (hdigit 2 (by decide))).trans (toNat_digit (by omega))

/-- Settles O37: register z is stored at I + z, and nothing beyond I + x. -/
theorem storeRegistersWritesEach : Obligations.StoreRegistersWritesEach := by
  intro x s hwf hI
  obtain ⟨m, hstore, hexec⟩ := exec_stRegs_inside x s hI
  obtain ⟨-, hframe, -⟩ := storeBytes_spec _ _ _ _ hstore
  rw [regsUpTo_length] at hframe
  refine ⟨s.setMem m, hexec, fun z hz => read_storeBytes_regsUpTo hz hwf hstore, fun a ha => hframe a ?_, rfl⟩
  exact ha.imp_right Nat.succ_le_of_lt

/-- Settles O38: the load writes the registers of its range and no register above it. -/
theorem loadRegistersReadsEach : Obligations.LoadRegistersReadsEach := by
  intro x s hI
  obtain ⟨t, hexec, hreads⟩ := exec_ldRegs_reads x s hI
  obtain rfl := Host.Outcome.next.inj ((exec_ldRegs_inside x s hI).symm.trans hexec)
  exact ⟨_, hexec, hreads, fun z hz => setRegsFrom_above s (by simp) hz, fun _ => rfl, rfl⟩

/-- Settles O39: a run of bytes that does not fit faults at the first address outside memory. -/
theorem memoryInstructionsFaultAboveMemory : Obligations.MemoryInstructionsFaultAboveMemory :=
  fun x s => ⟨exec_ldB_outside x s, fun h => ⟨exec_stRegs_outside x s h, exec_ldRegs_outside x s h⟩⟩

end Sys2Proof.Claims
end

section
/-! PROOFS. Subroutines, keys, timers and the no-operation (spec 41_control_transfer.md section 2,
45_keypad_and_timers.md, 40_cycle_and_dispatch.md section 2). -/

namespace Sys2Proof.Claims

open Sys2Proof.Machine

/-! ## Subroutines -/

/-- Settles O24: with a free slot CALL is a push and a jump; with none it is the fault. -/
theorem callPushesReturnAddress : Obligations.CallPushesReturnAddress := by
  refine fun addr s => ⟨fun h => ⟨_, exec_call_room addr s h, toNat_zextAddr addr, rfl, ?_, fun k hk hne => ?_,
    fun _ => rfl, rfl⟩, exec_call_full addr s⟩
  · exact Vector.getElem_set_self h
  · exact Vector.getElem_set_ne h hk hne.symm

/-- Settles O25: with a slot in use RET is a pop; with none it is the fault. -/
theorem returnPopsProgramCounter : Obligations.ReturnPopsProgramCounter :=
  fun s => ⟨fun h => ⟨_, exec_ret_some s h, rfl, rfl, fun _ => rfl, rfl⟩, exec_ret_empty s⟩

/-- Settles O26: the slot that RET pops is the one that CALL pushed. -/
theorem callThenReturnRestoresPc : Obligations.CallThenReturnRestoresPc := by
  intro addr s u v h hstack hsp
  obtain ⟨hroom, rfl⟩ := exec_call_next h
  have hval : v.sp.val = s.sp.val + 1 := congrArg Fin.val hsp
  refine ⟨_, exec_ret_some v (by omega), ?_, Fin.ext (by simp [hval])⟩
  simp [hstack, hval]

/-! ## Keys -/

/-- Settles O45: both skips test the key that the whole byte Vx selects, one for pressed and one for released. -/
theorem keySkipsTestTheKey : Obligations.KeySkipsTestTheKey := by
  refine fun x s => ⟨fun h => ⟨?skp, ?sknp⟩, fun h => ⟨exec_skp_outside x s h, exec_sknp_outside x s h⟩⟩
  case skp => exact ⟨_, exec_skp_inside x s h, onlyPc_skipIf s _, toNat_skipIf_pc s _⟩
  case sknp =>
    refine ⟨_, exec_sknp_inside x s h, onlyPc_skipIf s _, ?_⟩
    rw [toNat_skipIf_pc]
    cases s.keys[(s.reg x).toNat] <;> rfl

theorem decodeFamilyF_byte0A (op : Word) (h : opKk op = 0x0A) : decodeFamilyF op = .ldVxK (opX op) := by
  simp [decodeFamilyF, h]

/-- Settles O46: the scan finds the least pressed key, or none, and then the instruction goes back to its own address. -/
theorem waitForKeyTakesTheLeastKey : Obligations.WaitForKeyTakesTheLeastKey := by
  refine ⟨decodesAs_of_familyF 0x0A rfl rfl decodeFamilyF_byte0A,
    fun x s => ⟨fun k hk hpressed hleast => ?key, fun hnone => ?wait⟩⟩
  case key =>
    have hscan : leastPressed s.keys = some k := (leastPressed_some s.keys k).mpr ⟨hk, hpressed, hleast⟩
    refine ⟨_, exec_ldVxK_some x s k hscan, ?_, keepsOthers_setReg x _ s, onlyRegs_setReg x _ s⟩
    rw [reg_setReg_same]
    exact Nat.mod_eq_of_lt (by omega)
  case wait =>
    have hscan : leastPressed s.keys = none := (leastPressed_none s.keys).mpr hnone
    refine ⟨_, exec_ldVxK_none x s hscan, ?_, onlyPc_setPc s _⟩
    rw [rewind_pc, BitVec.toNat_sub, Nat.add_comm]
    rfl

/-! ## Timers -/

theorem decodeFamilyF_byte07 (op : Word) (h : opKk op = 0x07) : decodeFamilyF op = .ldVxDt (opX op) := by
  simp [decodeFamilyF, h]

theorem decodeFamilyF_byte15 (op : Word) (h : opKk op = 0x15) : decodeFamilyF op = .ldDtVx (opX op) := by
  simp [decodeFamilyF, h]

theorem decodeFamilyF_byte18 (op : Word) (h : opKk op = 0x18) : decodeFamilyF op = .ldStVx (opX op) := by
  simp [decodeFamilyF, h]

/-- Settles O47: each of the three is one update with the value it moves. -/
theorem timerMoves : Obligations.TimerMoves := by
  refine ⟨decodesAs_of_familyF 0x07 rfl rfl decodeFamilyF_byte07, decodesAs_of_familyF 0x15 rfl rfl decodeFamilyF_byte15,
    decodesAs_of_familyF 0x18 rfl rfl decodeFamilyF_byte18, fun x s => ⟨?ldVxDt, ?ldDtVx, ?ldStVx⟩⟩
  case ldVxDt => exact ⟨_, rfl, reg_setReg_same s x _, keepsOthers_setReg x _ s, onlyRegs_setReg x _ s⟩
  case ldDtVx => exact ⟨_, rfl, setDt_DT s _, fun _ => rfl, rfl⟩
  case ldStVx => exact ⟨_, rfl, setSt_ST s _, fun _ => rfl, rfl⟩

/-! ## The no-operation -/

theorem nextInstr_of_fetch16 {s : State} {op : Word} (h : fetch16 s.mem s.pc.toNat = .ok op) :
    nextInstr s = some (decodeWord op) := by
  rw [nextInstr, h]

/-- Settles O48: a word of no row decodes to the no-operation, so the Cycle is its advance and its tick. -/
theorem unmatchedWordDoesNothing : Obligations.UnmatchedWordDoesNothing := by
  refine ⟨fun _ _ => rfl, fun s op hf hfetch hnone => ?_⟩
  have hstep := step_of_nextInstr hf (nextInstr_of_fetch16 hfetch)
  rw [decodeWord_unmatched hnone] at hstep
  exact ⟨s.advance.tick, hstep, BitVec.toNat_add s.pc 2, tickTimer_toNat _, tickTimer_toNat _, fun _ => rfl, rfl⟩

end Sys2Proof.Claims
end

section
/-! PROOFS. Flag-writing arithmetic, RND and ADD I (spec 42_load_and_arithmetic.md, 43_index_and_memory.md section 2). -/

namespace Sys2Proof.Claims

open Sys2Proof.Machine

variable (x : Nibble) (s : State)

/-! ## The two writes of a flag-writing instruction (R173) -/

/-- What a flag-writing instruction leaves, given its result and its flag as numbers; when Vx is VF the flag remains. -/
theorem writeResultAndFlag_spec {r f : Byte} {result flag : Nat} (hr : r.toNat = result) (hf : f.toNat = flag) :
    (x ≠ 0xF → ((writeResultAndFlag vfWriteOrder x r f s).reg x).toNat = result) ∧
    ((writeResultAndFlag vfWriteOrder x r f s).reg 0xF).toNat = flag ∧
    keepsOthersAndVf x s (writeResultAndFlag vfWriteOrder x r f s) ∧
    onlyRegs s (writeResultAndFlag vfWriteOrder x r f s) := by
  have hreg := fun z => reg_writeResultAndFlag_flagLast s x z r f
  refine ⟨fun hx => ?_, ?_, fun z hx hF => (hreg z).trans ((if_neg hF).trans (if_neg hx)), fun _ => rfl,
    writeResultAndFlag_frame s vfWriteOrder x r f⟩
  · rw [← hr]
    exact congrArg BitVec.toNat ((hreg x).trans ((if_neg hx).trans (if_pos rfl)))
  · rw [← hf]
    exact congrArg BitVec.toNat ((hreg 0xF).trans (if_pos rfl))

/-! ## Results and flags as numbers -/

theorem toNat_flagByte (p : Prop) [Decidable p] : (flagByte (decide p)).toNat = if p then 1 else 0 := by
  by_cases h : p <;> simp [flagByte, h]

theorem toNat_shrFlag : ∀ a : Byte, (shrFlag a).toNat = a.toNat % 2 := by decide

theorem toNat_shlFlag : ∀ a : Byte, (shlFlag a).toNat = a.toNat / 128 := by decide

theorem toNat_sub_byte (a b : Byte) : (a - b).toNat = (a.toNat + 256 - b.toNat) % 256 := by
  rw [BitVec.toNat_sub]
  omega

theorem toNat_shiftRight_one (a : Byte) : (a >>> 1).toNat = a.toNat / 2 := by
  rw [BitVec.toNat_ushiftRight, Nat.shiftRight_eq_div_pow, Nat.pow_one]

theorem toNat_shiftLeft_one (a : Byte) : (a <<< 1).toNat = a.toNat * 2 % 256 := by
  rw [BitVec.toNat_shiftLeft, Nat.shiftLeft_eq, Nat.pow_one]

/-! ## The obligations -/

/-- Settles O30: the sum of the old values is written first, the carry last. -/
theorem addSetsCarry : Obligations.AddSetsCarry :=
  fun x y s => ⟨_, rfl, writeResultAndFlag_spec x s (BitVec.toNat_add (s.reg x) (s.reg y)) (toNat_flagByte _)⟩

/-- Settles O31: the difference of the old values is written first, the strict comparison last. -/
theorem subtractionsSetStrictFlag : Obligations.SubtractionsSetStrictFlag := fun x y s =>
  ⟨⟨_, rfl, writeResultAndFlag_spec x s (toNat_sub_byte (s.reg x) (s.reg y)) (toNat_flagByte _)⟩,
   ⟨_, rfl, writeResultAndFlag_spec x s (toNat_sub_byte (s.reg y) (s.reg x)) (toNat_flagByte _)⟩⟩

/-- Settles O32: the shifted old value is written first, the bit shifted out last. -/
theorem shiftsSaveTheBit : Obligations.ShiftsSaveTheBit := fun x s =>
  ⟨⟨_, rfl, writeResultAndFlag_spec x s (toNat_shiftRight_one (s.reg x)) (toNat_shrFlag (s.reg x))⟩,
   ⟨_, rfl, writeResultAndFlag_spec x s (toNat_shiftLeft_one (s.reg x)) (toNat_shlFlag (s.reg x))⟩⟩

/-- Settles O33: RND counts the draw and writes one register. -/
theorem randomByteIsMasked : Obligations.RandomByteIsMasked := by
  refine fun x kk s => ⟨s.drawn.setReg x (randByte s &&& kk), rfl, fun b _ => ?_, rfl, keepsOthers_setReg x _ s.drawn,
    fun _ => rfl, rfl⟩
  rw [reg_setReg_same, BitVec.getLsbD_and]
  rfl

/-- Settles O35: the sum of words wraps, and I is all that is written. -/
theorem indexAddWraps : Obligations.IndexAddWraps := by
  refine fun x s => ⟨_, rfl, ?_, onlyIndex_setI _ s⟩
  rw [setI_I, BitVec.toNat_add, toNat_zextByte]

end Sys2Proof.Claims
end

section
/-! PROOFS. Drawing (spec 44_display.md R212 to R214): what DRW leaves when its rows fit, and that it faults at the first
row, and in it at the first set bit, that does not. -/

namespace Sys2Proof.Claims

open Sys2Proof.Machine

variable {x y n : Nibble} {s : State}

/-! ## A sprite whose rows fit -/

theorem reg_vf_of_hit {hit : Bool} (h : hit = true) : (s.setReg regF (flagByte hit)).reg 0xF = 1 := by
  subst h
  exact reg_setReg_same s regF _

theorem reg_vf_of_miss {hit : Bool} (h : ¬hit = true) : (s.setReg regF (flagByte hit)).reg 0xF = 0 := by
  cases hit
  case false => exact reg_setReg_same s regF _
  case true => exact absurd rfl h

/-- DRW with its rows in memory and its set bits in the grid: each touched cell is inverted, the flag is whether one of them
was lit. -/
theorem exec_drw_fits (hfit : ∀ row < n.toNat, rowFits s x y row) :
    ∃ d : Drawing, exec (.drw x y n) s = .next ((s.setFb d.fb).setReg regF (flagByte d.hit)) ∧
      (∀ cy cx, fbCell d.fb cy cx = true ↔ (fbCell s.fb cy cx = true ↔ ¬touches s x y n cy cx)) ∧
      (d.hit = true ↔ ∃ cy cx, touches s x y n cy cx ∧ fbCell s.fb cy cx = true) := by
  obtain ⟨d, hdraw, hcells, hhit⟩ := drawRows_inside s.mem s.base (s.spriteX x) (s.spriteY y) (List.range n.toNat)
    List.nodup_range ⟨s.fb, false⟩
    (fun row hrow => Nat.lt_succ_of_le (hfit row (List.mem_range.mp hrow)).1)
    (fun row hrow => (hfit row (List.mem_range.mp hrow)).2)
  simp only [List.mem_range] at hcells hhit
  refine ⟨d, exec_drw_ok x y n s d hdraw, hcells, hhit.trans ?_⟩
  constructor
  · rintro (hno | ⟨row, hrow, col, hcol, hset, hlit⟩)
    · cases hno
    · exact ⟨_, _, ⟨row, hrow, col, hcol, hset, rfl, rfl⟩, hlit⟩
  · rintro ⟨_, _, ⟨row, hrow, col, hcol, hset, rfl, rfl⟩, hlit⟩
    exact .inr ⟨row, hrow, col, hcol, hset, hlit⟩

/-- Settles O42: the cells and the flag are the drawing's, and the framebuffer and VF are all DRW writes. -/
theorem drawInvertsTouchedCells : Obligations.DrawInvertsTouchedCells := by
  intro x y n s hfit
  obtain ⟨d, hexec, hcells, hhit⟩ := exec_drw_fits hfit
  refine ⟨_, hexec, fun cy _ cx _ ht => ?touched, fun cy _ cx _ ht => ?untouched, fun hlit => reg_vf_of_hit (hhit.mpr hlit),
    fun hdark => reg_vf_of_miss ?dark, keepsOthers_setReg regF _ _, fun _ => rfl, rfl⟩
  case touched =>
    have hcell := hcells cy cx
    simp only [ht, not_true, iff_false, Bool.not_eq_true] at hcell
    show fbCell d.fb cy cx = _
    rw [Bool.eq_iff_iff, hcell, Bool.not_eq_true']
  case untouched =>
    have hcell := hcells cy cx
    simp only [ht, not_false_iff, iff_true] at hcell
    exact Bool.eq_iff_iff.mpr hcell
  case dark =>
    rw [hhit]
    rintro ⟨cy, cx, ht, hlit⟩
    rw [hdark cy cx ht] at hlit
    cases hlit

/-! ## A sprite with a row that does not fit -/

/-- The numbers below `n` up to one of them, and that one. -/
theorem range_split {n k : Nat} (h : k < n) : ∃ post, List.range n = List.range k ++ k :: post := by
  obtain ⟨j, rfl⟩ := Nat.exists_eq_add_of_lt h
  rw [Nat.add_assoc, List.range_add, List.range_succ_eq_map, List.map_cons, Nat.add_zero]
  exact ⟨_, rfl⟩

/-- The rows before one that does not fit are drawn. -/
theorem drawRows_before {row : Nat} (hfit : ∀ r < row, rowFits s x y r) (d : Drawing) :
    ∃ d', drawRows .fault s.mem s.base (s.spriteX x) (s.spriteY y) (List.range row) d = .ok d' := by
  obtain ⟨d', hdraw, -, -⟩ := drawRows_inside s.mem s.base (s.spriteX x) (s.spriteY y) (List.range row)
    List.nodup_range d
    (fun r hr => Nat.lt_succ_of_le (hfit r (List.mem_range.mp hr)).1)
    (fun r hr => (hfit r (List.mem_range.mp hr)).2)
  exact ⟨d', hdraw⟩

/-- Settles O43: the rows before it are drawn, and the first row, or in it the first set bit, that does not fit faults. -/
theorem drawFaultsInOrder : Obligations.DrawFaultsInOrder := by
  intro x y n s row hrow hfit
  obtain ⟨post, hrows⟩ := range_split hrow
  obtain ⟨d, hbefore⟩ := drawRows_before hfit ⟨s.fb, false⟩
  refine ⟨fun hout => exec_drw_error x y n s _ ?memory, fun hin col hcol hset hleft hout => exec_drw_error x y n s _ ?edge⟩
  case memory =>
    rw [drawSprite, hrows]
    exact drawRows_memFault _ _ _ _ _ _ _ _ _ hbefore hout
  case edge =>
    obtain ⟨right, hcols⟩ := range_split hcol
    rw [drawSprite, hrows]
    refine drawRows_rowFault _ _ _ _ _ _ _ _ _ _ hbefore (Nat.lt_succ_of_le hin) ?_
    exact drawRow_outside _ _ _ _ _ _ right col hcols (fun c hc => hleft c (List.mem_range.mp hc)) hset hout

theorem exists_least_failing {p : Nat → Prop} {n : Nat} (h : ¬∀ k < n, p k) : ∃ k < n, ¬p k ∧ ∀ j < k, p j := by
  classical
  have hex : ∃ k, k < n ∧ ¬p k := by simpa using h
  obtain ⟨hlt, hfails⟩ := Nat.find_spec hex
  exact ⟨Nat.find hex, hlt, hfails, fun j hj => by_contra fun hp => Nat.find_min hex hj ⟨hj.trans hlt, hp⟩⟩

/-- DRW's rows all fit, or it faults at one of them: above memory, or at a set bit outside the grid. -/
theorem drw_fits_or_faults (x y n : Nibble) (s : State) :
    (∀ row < n.toNat, rowFits s x y row) ∨ ∃ row < n.toNat,
      (4095 < s.I.toNat + row ∧ exec (.drw x y n) s = .fault (.memFault (s.I.toNat + row))) ∨
      (s.I.toNat + row ≤ 4095 ∧ ∃ col < 8, bitSet s row col ∧ (63 < xPos s x + col ∨ 31 < yPos s y + row) ∧
        exec (.drw x y n) s = .fault (.fbFault (xPos s x + col) (yPos s y + row))) := by
  by_cases hall : ∀ row < n.toNat, rowFits s x y row
  · exact .inl hall
  obtain ⟨row, hrow, hbad, hbefore⟩ := exists_least_failing hall
  obtain ⟨hmemory, hedge⟩ := drawFaultsInOrder x y n s row hrow hbefore
  refine .inr ⟨row, hrow, ?_⟩
  by_cases hin : s.I.toNat + row ≤ 4095
  · obtain ⟨col, hcol, hbad, hleft⟩ := exists_least_failing fun hcols => hbad ⟨hin, hcols⟩
    obtain ⟨hset, hout⟩ := Classical.not_imp.mp hbad
    have hout : 63 < xPos s x + col ∨ 31 < yPos s y + row := by omega
    exact .inr ⟨hin, col, hcol, hset, hout, hedge hin col hcol hset hleft hout⟩
  · exact .inl ⟨by omega, hmemory (by omega)⟩

/-- Settles O44: both draws touch the same cells, so each is inverted twice, and the second meets what the first left. -/
theorem drawTwiceRestoresFramebuffer : Obligations.DrawTwiceRestoresFramebuffer := by
  intro x y n s u h
  have hfit : ∀ row < n.toNat, rowFits s x y row := by
    obtain hfit | ⟨row, -, ⟨-, hfault⟩ | ⟨-, col, -, -, -, hfault⟩⟩ := drw_fits_or_faults x y n s
    · exact hfit
    · rw [h] at hfault
      cases hfault
    · rw [h] at hfault
      cases hfault
  obtain ⟨d, hexec, hcells, -⟩ := exec_drw_fits hfit
  obtain rfl := Host.Outcome.next.inj (h.symm.trans hexec)
  obtain ⟨e, hagain, hcells', hhit⟩ := exec_drw_fits
    (s := { (s.setFb d.fb).setReg regF (flagByte d.hit) with V := s.V }) hfit
  have hcells' : ∀ cy cx, fbCell e.fb cy cx = true ↔ (fbCell d.fb cy cx = true ↔ ¬touches s x y n cy cx) := hcells'
  have hhit : e.hit = true ↔ ∃ cy cx, touches s x y n cy cx ∧ fbCell d.fb cy cx = true := hhit
  refine ⟨_, hagain, framebuffer_ext _ _ fun cy cx _ _ => ?restored, ?dark, ?lit⟩
  case restored =>
    refine Bool.eq_iff_iff.mpr ((hcells' cy cx).trans ?_)
    rw [hcells cy cx]
    by_cases ht : touches s x y n cy cx <;> simp [ht]
  case dark =>
    rintro ⟨cy, cx, ht, hdark⟩
    have hlit : fbCell d.fb cy cx = true := (hcells cy cx).mpr (by simp [ht, hdark])
    exact reg_vf_of_hit (hhit.mpr ⟨cy, cx, ht, hlit⟩)
  case lit =>
    intro hlit
    refine reg_vf_of_miss (hhit.not.mpr ?_)
    rintro ⟨cy, cx, ht, hd⟩
    exact ((hcells cy cx).mp hd).mp (hlit cy cx ht) ht

end Sys2Proof.Claims
end

section
/-! PROOFS. Rules of the whole machine (spec 60_exceptions.md R250, 40_cycle_and_dispatch.md R128): no instruction is
refused, an execution faults in the listed cases only, and the inputs reach only the instructions that read them. -/

namespace Sys2Proof.Claims

open Sys2Proof.Machine

variable {i : Instr} {s : State}

/-! ## What an execution can answer (R250) -/

/-- The fault an instruction raises in a state by the table of R250. -/
def ListedFault (i : Instr) (s : State) (f : Fault) : Prop :=
  (∃ addr, i = .call addr ∧ s.sp.val = 16 ∧ f = .stackOverflow) ∨
  (i = .ret ∧ s.sp.val = 0 ∧ f = .stackUnderflow) ∨
  (∃ x, (i = .skp x ∨ i = .sknp x) ∧ 15 < (s.reg x).toNat ∧ f = .keyIndexFault (s.reg x)) ∨
  (∃ x, i = .ldB x ∧ 4095 < s.I.toNat + 2 ∧ f = .memFault (if s.I.toNat ≤ 4095 then 4096 else s.I.toNat)) ∨
  (∃ x, (i = .stRegs x ∨ i = .ldRegs x) ∧ 4095 < s.I.toNat + x.toNat ∧
    f = .memFault (if s.I.toNat ≤ 4095 then 4096 else s.I.toNat)) ∨
  (∃ x y n, i = .drw x y n ∧ ∃ row < n.toNat,
    (4095 < s.I.toNat + row ∧ f = .memFault (s.I.toNat + row)) ∨
    (s.I.toNat + row ≤ 4095 ∧ ∃ col < 8, bitSet s row col ∧
      (63 < xPos s x + col ∨ 31 < yPos s y + row) ∧ f = .fbFault (xPos s x + col) (yPos s y + row)))

theorem drw_next_or_listed (x y n : Nibble) (s : State) :
    (∃ t, exec (.drw x y n) s = .next t) ∨ ∃ f, exec (.drw x y n) s = .fault f ∧ ListedFault (.drw x y n) s f := by
  obtain hfit | ⟨row, hrow, ⟨hout, hfault⟩ | ⟨hin, col, hcol, hset, hout, hfault⟩⟩ := drw_fits_or_faults x y n s
  · obtain ⟨d, hexec, -, -⟩ := exec_drw_fits hfit
    exact .inl ⟨_, hexec⟩
  · exact .inr ⟨_, hfault, .inr (.inr (.inr (.inr (.inr ⟨x, y, n, rfl, row, hrow, .inl ⟨hout, rfl⟩⟩))))⟩
  · exact .inr ⟨_, hfault, .inr (.inr (.inr (.inr (.inr
      ⟨x, y, n, rfl, row, hrow, .inr ⟨hin, col, hcol, hset, hout, rfl⟩⟩))))⟩

/-- Every instruction completes or raises its listed fault. -/
theorem exec_next_or_listed (i : Instr) (s : State) :
    (∃ t, exec i s = .next t) ∨ ∃ f, exec i s = .fault f ∧ ListedFault i s f := by
  cases i
  case call addr =>
    by_cases hsp : s.sp.val < 16
    · exact .inl ⟨_, exec_call_room addr s hsp⟩
    · have hfull : s.sp.val = 16 := by omega
      exact .inr ⟨_, exec_call_full addr s hfull, .inl ⟨addr, rfl, hfull, rfl⟩⟩
  case ret =>
    by_cases hsp : 0 < s.sp.val
    · exact .inl ⟨_, exec_ret_some s hsp⟩
    · have hempty : s.sp.val = 0 := by omega
      exact .inr ⟨_, exec_ret_empty s hempty, .inr (.inl ⟨rfl, hempty, rfl⟩)⟩
  case skp x =>
    obtain hx | hx := Nat.lt_or_ge (s.reg x).toNat 16
    · exact .inl ⟨_, exec_skp_inside x s hx⟩
    · exact .inr ⟨_, exec_skp_outside x s hx, .inr (.inr (.inl ⟨x, .inl rfl, hx, rfl⟩))⟩
  case sknp x =>
    obtain hx | hx := Nat.lt_or_ge (s.reg x).toNat 16
    · exact .inl ⟨_, exec_sknp_inside x s hx⟩
    · exact .inr ⟨_, exec_sknp_outside x s hx, .inr (.inr (.inl ⟨x, .inr rfl, hx, rfl⟩))⟩
  case ldVxK x =>
    cases hk : leastPressed s.keys with
    | some k => exact .inl ⟨_, exec_ldVxK_some x s k hk⟩
    | none => exact .inl ⟨_, exec_ldVxK_none x s hk⟩
  case ldB x =>
    obtain hout | hfit := Nat.lt_or_ge 4095 (s.I.toNat + 2)
    · exact .inr ⟨_, exec_ldB_outside x s hout, .inr (.inr (.inr (.inl ⟨x, rfl, hout, rfl⟩)))⟩
    · obtain ⟨m, -, hexec⟩ := exec_ldB_inside x s hfit
      exact .inl ⟨_, hexec⟩
  case stRegs x =>
    obtain hout | hfit := Nat.lt_or_ge 4095 (s.I.toNat + x.toNat)
    · exact .inr ⟨_, exec_stRegs_outside x s hout, .inr (.inr (.inr (.inr (.inl ⟨x, .inl rfl, hout, rfl⟩))))⟩
    · obtain ⟨m, -, hexec⟩ := exec_stRegs_inside x s hfit
      exact .inl ⟨_, hexec⟩
  case ldRegs x =>
    obtain hout | hfit := Nat.lt_or_ge 4095 (s.I.toNat + x.toNat)
    · exact .inr ⟨_, exec_ldRegs_outside x s hout, .inr (.inr (.inr (.inr (.inl ⟨x, .inr rfl, hout, rfl⟩))))⟩
    · exact .inl ⟨_, exec_ldRegs_inside x s hfit⟩
  case drw x y n => exact drw_next_or_listed x y n s
  all_goals exact .inl ⟨_, rfl⟩

/-- Settles O49: an instruction that does not complete raises a listed fault. -/
theorem everyInstructionCompletesOrFaults : Obligations.EveryInstructionCompletesOrFaults :=
  fun i s => (exec_next_or_listed i s).imp_right fun ⟨f, hf, _⟩ => ⟨f, hf⟩

/-- Settles O50: the fault an execution answers is the listed one. -/
theorem faultsOnlyInTheListedCases : Obligations.FaultsOnlyInTheListedCases := by
  intro i s f h
  obtain ⟨t, ht⟩ | ⟨g, hg, hlisted⟩ := exec_next_or_listed i s
  · rw [h] at ht
    cases ht
  · obtain rfl := Host.Outcome.fault.inj (h.symm.trans hg)
    exact hlisted

/-! ## The inputs (R128) -/

/-- The state with its two inputs replaced: the key flags, and which free byte comes next. -/
def replaceInputs (fk : Keypad → Keypad) (fd : Nat → Nat) (s : State) : State :=
  { s with keys := fk s.keys, draws := fd s.draws }

/-- An outcome with its next state, if it has one, changed. -/
def mapNext (g : State → State) : Host.Outcome State Fault Refusal → Host.Outcome State Fault Refusal
  | .next t => .next (g t)
  | .fault f => .fault f
  | .refused r => .refused r

section
variable (fk : Keypad → Keypad) (fd : Nat → Nat)

theorem skipIf_replaceInputs (s : State) (cond : Bool) :
    (replaceInputs fk fd s).skipIf cond = replaceInputs fk fd (s.skipIf cond) := by
  rw [skipIf_eq, skipIf_eq]
  rfl

variable {fk fd}

/-- Two runs that answer the same outcome but for the inputs it passes on. -/
theorem commutes_of_eq {o : Host.Outcome State Fault Refusal} (h : exec i s = o)
    (h' : exec i (replaceInputs fk fd s) = mapNext (replaceInputs fk fd) o) :
    exec i (replaceInputs fk fd s) = mapNext (replaceInputs fk fd) (exec i s) := by
  rw [h', h]

/-- An instruction that does not read an input does the same whatever that input is, and passes it on. -/
theorem exec_replaceInputs (hk : (∀ x, i ≠ .skp x ∧ i ≠ .sknp x ∧ i ≠ .ldVxK x) ∨ fk = id)
    (hd : (∀ x kk, i ≠ .rnd x kk) ∨ fd = id) :
    exec i (replaceInputs fk fd s) = mapNext (replaceInputs fk fd) (exec i s) := by
  have hskip := fun cond => congrArg (Host.Outcome.next (φ := Fault) (ρ := Refusal)) (skipIf_replaceInputs fk fd s cond)
  cases i
  case skp x =>
    obtain hk | rfl := hk
    · exact absurd rfl (hk x).1
    obtain hx | hx := Nat.lt_or_ge (s.reg x).toNat 16
    · exact commutes_of_eq (exec_skp_inside x s hx) ((exec_skp_inside x (replaceInputs id fd s) hx).trans (hskip _))
    · exact commutes_of_eq (exec_skp_outside x s hx) (exec_skp_outside x _ hx)
  case sknp x =>
    obtain hk | rfl := hk
    · exact absurd rfl (hk x).2.1
    obtain hx | hx := Nat.lt_or_ge (s.reg x).toNat 16
    · exact commutes_of_eq (exec_sknp_inside x s hx) ((exec_sknp_inside x (replaceInputs id fd s) hx).trans (hskip _))
    · exact commutes_of_eq (exec_sknp_outside x s hx) (exec_sknp_outside x _ hx)
  case ldVxK x =>
    obtain hk | rfl := hk
    · exact absurd rfl (hk x).2.2
    cases hleast : leastPressed s.keys with
    | some k => exact commutes_of_eq (exec_ldVxK_some x s k hleast) (exec_ldVxK_some x _ k hleast)
    | none => exact commutes_of_eq (exec_ldVxK_none x s hleast) (exec_ldVxK_none x _ hleast)
  case rnd x kk =>
    obtain hd | rfl := hd
    · exact absurd rfl (hd x kk)
    rfl
  case call addr =>
    by_cases hsp : s.sp.val < 16
    · exact commutes_of_eq (exec_call_room addr s hsp) (exec_call_room addr (replaceInputs fk fd s) hsp)
    · have hfull : s.sp.val = 16 := by omega
      exact commutes_of_eq (exec_call_full addr s hfull) (exec_call_full addr _ hfull)
  case ret =>
    by_cases hsp : 0 < s.sp.val
    · exact commutes_of_eq (exec_ret_some s hsp) (exec_ret_some (replaceInputs fk fd s) hsp)
    · have hempty : s.sp.val = 0 := by omega
      exact commutes_of_eq (exec_ret_empty s hempty) (exec_ret_empty _ hempty)
  case ldB x =>
    obtain hout | hfit := Nat.lt_or_ge 4095 (s.I.toNat + 2)
    · exact commutes_of_eq (exec_ldB_outside x s hout) (exec_ldB_outside x _ hout)
    · obtain ⟨m, hm, h⟩ := exec_ldB_inside x s hfit
      obtain ⟨m', hm', h'⟩ := exec_ldB_inside x (replaceInputs fk fd s) hfit
      obtain rfl : m' = m := Except.ok.inj (hm'.symm.trans hm)
      exact commutes_of_eq h h'
  case stRegs x =>
    obtain hout | hfit := Nat.lt_or_ge 4095 (s.I.toNat + x.toNat)
    · exact commutes_of_eq (exec_stRegs_outside x s hout) (exec_stRegs_outside x _ hout)
    · obtain ⟨m, hm, h⟩ := exec_stRegs_inside x s hfit
      obtain ⟨m', hm', h'⟩ := exec_stRegs_inside x (replaceInputs fk fd s) hfit
      obtain rfl : m' = m := Except.ok.inj (hm'.symm.trans hm)
      exact commutes_of_eq h h'
  case ldRegs x =>
    obtain hout | hfit := Nat.lt_or_ge 4095 (s.I.toNat + x.toNat)
    · exact commutes_of_eq (exec_ldRegs_outside x s hout) (exec_ldRegs_outside x _ hout)
    · exact commutes_of_eq (exec_ldRegs_inside x s hfit) (exec_ldRegs_inside x (replaceInputs fk fd s) hfit)
  case drw x y n =>
    cases hdraw : drawSprite fbEdgePolicy s.mem s.base (s.spriteX x) (s.spriteY y) n.toNat s.fb with
    | ok d => exact commutes_of_eq (exec_drw_ok x y n s d hdraw) (exec_drw_ok x y n (replaceInputs fk fd s) d hdraw)
    | error f => exact commutes_of_eq (exec_drw_error x y n s f hdraw) (exec_drw_error x y n (replaceInputs fk fd s) f hdraw)
  case seImm | sneImm | seReg | sneReg => exact hskip _
  all_goals rfl

end

/-- Settles O53: replacing one input, with the other passed on as it is. -/
theorem inputsReachOnlyTheirInstructions : Obligations.InputsReachOnlyTheirInstructions := by
  refine fun i s keys draws => ⟨fun hi => ?keys, fun hi => ?draws⟩
  case keys =>
    have h := exec_replaceInputs (s := s) (fk := fun _ => keys) (fd := id) (.inl hi) (.inr rfl)
    exact ⟨fun t ht => h.trans (by rw [ht]; rfl), fun f hf => h.trans (by rw [hf]; rfl)⟩
  case draws =>
    have h := exec_replaceInputs (s := s) (fk := id) (fd := fun _ => draws) (.inr rfl) (.inl hi)
    exact ⟨fun t ht => h.trans (by rw [ht]; rfl), fun f hf => h.trans (by rw [hf]; rfl)⟩

end Sys2Proof.Claims
end
